-- ==== Sys2Proof/Word.lean ====
section
/-! DEFINITION. The word and the byte of the model.

A word is "the fundamental 16-bit unit of memory, registers, and instruction encoding"
(spec/00_scope.md R8, R9, R16). The byte exists only as the unit in which the model lists
memory (log 1); no instruction ever sees one (spec/20_memory.md R52, R53). -/

namespace Sys2Proof

/-- A 16-bit word (spec/00_scope.md R9): registers, memory cells, addresses and extra words. -/
abbrev Word := BitVec 16

/-- A byte: half of a word as memory lists it (log 1) and as a program file holds it (R52). -/
abbrev Byte := BitVec 8

end Sys2Proof
end

