-- ==== Sys2Proof/Config.lean ====
section
/-! DEFINITION. What the spec leaves open: free values with no body, so that no proof can see them.

The parameters the spec itself decides (`FIELD_LAYOUT` D1, `OPCODE_MAP` D2, `EX_WRITE_ORDER` D9)
are fixed in Decode.lean and Machine/Ops.lean; `PROGRAM_LENGTH` is a field of State (log 2). -/

namespace Sys2Proof

/-- `DIV_EX(D, S)`: the word DIV leaves in EX when S ≠ 0 (spec/42_arith.md R156, OPEN, decision D10).
The source says only "remainder-derived high bits per reference". A FREE VALUE (log 10). -/
opaque Config.divEx (D S : Word) : Word

/-- `DVI_EX(D, S)`: the word DVI leaves in EX when S ≠ 0 (spec/42_arith.md R157, OPEN, decision D11).
A FREE VALUE (log 11). -/
opaque Config.dviEx (D S : Word) : Word

/-- Whether a literal destination's extra word is consumed before LiteralDestination is raised:
"unspecified" (spec/40_operands.md R104, decision D21). A FREE VALUE (log 16). -/
opaque Config.literalDestinationTakesExtra : Bool

end Sys2Proof
end

