-- ==== Sys2Proof/Syntax.lean ====
section
/-! DEFINITION. The instructions as the decoder reads them: one constructor of `Instr` per row of
spec/opcode_table.json, its operands with their extra words already in place. -/

namespace Sys2Proof

/-- A general register's id, 0 to 7 (spec/10_state.md R21). -/
abbrev Reg := Fin 8

/-- An operand form that means the same in both positions (spec/30_encoding.md R73: every code below
0x20 but 0x18 and 0x1F). `n` is the operand's extra word (R74). -/
inductive Place where
  /-- codes 0x00–0x07: the register itself (spec/40_operands.md R92) -/
  | reg (r : Reg)
  /-- codes 0x08–0x0F, `[R]`: memory at the register (R93) -/
  | ind (r : Reg)
  /-- codes 0x10–0x17, `[R+n]`: memory at register plus extra word (R94) -/
  | indDisp (r : Reg) (n : Word)
  /-- code 0x19, `PEEK`: memory at SP (R97) -/
  | peek
  /-- code 0x1A, `PICK n`: memory at SP plus extra word (R98) -/
  | pick (n : Word)
  /-- code 0x1B: SP itself (R99) -/
  | sp
  /-- code 0x1C: PC itself (R100) -/
  | pc
  /-- code 0x1D: EX itself (R101) -/
  | ex
  /-- code 0x1E, `[n]`: memory at the extra word (R102) -/
  | abs (n : Word)
  deriving DecidableEq, Repr

/-- A b operand, resolved as a destination: the codes 0x00–0x1F (spec/30_encoding.md R73). -/
inductive Dst where
  /-- every form that b and a share -/
  | place (p : Place)
  /-- code 0x18 in b, `PUSH` (spec/40_operands.md R95) -/
  | push
  /-- code 0x1F in b: a literal, "invalid as destination"; every instruction that has it faults
  (R104, R222) -/
  | literal (n : Word)
  deriving DecidableEq, Repr

/-- An a operand: the codes 0x00–0x3F (spec/30_encoding.md R73). -/
inductive Src where
  /-- every form that b and a share -/
  | place (p : Place)
  /-- code 0x18 in a, `POP` (spec/40_operands.md R96) -/
  | pop
  /-- code 0x1F in a: the extra word itself (R103) -/
  | literal (n : Word)
  /-- codes 0x20–0x3F: the small literal −1..30, by the code's low five bits (R105) -/
  | small (k : BitVec 5)
  deriving DecidableEq, Repr

/-- The instructions: the fourteen basic ones with operands b and a, and JSR with operand a
(spec/30_encoding.md R77, R78; spec/opcode_table.json). -/
inductive Instr where
  | set (b : Dst) (a : Src)
  | add (b : Dst) (a : Src)
  | sub (b : Dst) (a : Src)
  | mul (b : Dst) (a : Src)
  | mli (b : Dst) (a : Src)
  | div (b : Dst) (a : Src)
  | dvi (b : Dst) (a : Src)
  | mod (b : Dst) (a : Src)
  | mdi (b : Dst) (a : Src)
  | and (b : Dst) (a : Src)
  | bor (b : Dst) (a : Src)
  | xor (b : Dst) (a : Src)
  | ife (b : Dst) (a : Src)
  | ifn (b : Dst) (a : Src)
  | jsr (a : Src)
  deriving DecidableEq, Repr

/-- The operand of the b field. JSR's b field holds its special code 0x01, which resolves as
register 1 "with no side effect" (spec/41_dispatch.md R123, decision D7, log 17). -/
def Instr.dst : Instr → Dst
  | .set b _ | .add b _ | .sub b _ | .mul b _ | .mli b _ | .div b _ | .dvi b _ | .mod b _
  | .mdi b _ | .and b _ | .bor b _ | .xor b _ | .ife b _ | .ifn b _ => b
  | .jsr _ => .place (.reg 1)

/-- The operand of the a field. -/
def Instr.src : Instr → Src
  | .set _ a | .add _ a | .sub _ a | .mul _ a | .mli _ a | .div _ a | .dvi _ a | .mod _ a
  | .mdi _ a | .and _ a | .bor _ a | .xor _ a | .ife _ a | .ifn _ a => a
  | .jsr a => a

end Sys2Proof
end

