-- ==== Sys2Proof/WellFormed.lean ====
section
/-! DEFINITION. Which instructions have a destination the hardware can write.

The types of Syntax.lean already hold every other bound (register ids, code widths). The one check
left is spec/30_encoding.md R81: code 0x1F in the b field is an illegal operand. -/

namespace Sys2Proof

/-- b "must resolve to a writable location" (spec/00_scope.md R16, spec/40_operands.md R104). -/
def Dst.writable : Dst → Bool
  | .place _ => true
  | .push => true
  | .literal _ => false

/-- An instruction is well formed when its b operand is no literal: the rule holds for every opcode,
IFE, IFN and the special family among them (R104, decision D6, log 15). -/
def Instr.wellFormed (i : Instr) : Bool := i.dst.writable

end Sys2Proof
end

