-- ==== Sys2Proof/Decode.lean ====
section
/-! DEFINITION. Decoding and encoding (spec/30_encoding.md).

`decode` is total on every instruction word (R79). It is given the two words that follow the
instruction word too, and uses as many of them as the operand codes say (R72, R74). Field positions
are the spec's decision D1 (log 7), opcode numbers its decision D2 (log 8). -/

namespace Sys2Proof

/-! ### Fields of the instruction word (R71) -/

/-- `o = w[4:0]` -/
def opcodeField (w : Word) : BitVec 5 := w.extractLsb' 0 5

/-- `b = w[9:5]`: the destination code, or the special code when `o` is 0 -/
def destinationField (w : Word) : BitVec 5 := w.extractLsb' 5 5

/-- `a = w[15:10]` -/
def sourceField (w : Word) : BitVec 6 := w.extractLsb' 10 6

/-- The instruction word of three fields, `aaaaaabbbbbooooo`. -/
def instructionWord (o b : BitVec 5) (a : BitVec 6) : Word := a ++ b ++ o

/-! ### Operand codes (R73, R74) -/

/-- `ext(c)`: whether operand code `c` takes an extra word (R74). -/
def takesExtra (c : BitVec 6) : Bool :=
  (0x10#6 ≤ c && c ≤ 0x17#6) || c = 0x1A#6 || c = 0x1E#6 || c = 0x1F#6

/-- The register a code of the ranges 0x00–0x17 names: its low three bits. -/
def registerOf (c : BitVec 5) : Reg := (c.extractLsb' 0 3).toFin

/-- The form that both positions give code `c`, with extra word `n` where it takes one (R73).
`none` for 0x18 and 0x1F, the two codes on which the positions differ. -/
def placeOfCode (c : BitVec 5) (n : Word) : Option Place :=
  if c ≤ 0x07#5 then some (.reg (registerOf c))
  else if c ≤ 0x0F#5 then some (.ind (registerOf c))
  else if c ≤ 0x17#5 then some (.indDisp (registerOf c) n)
  else if c = 0x19#5 then some .peek
  else if c = 0x1A#5 then some (.pick n)
  else if c = 0x1B#5 then some .sp
  else if c = 0x1C#5 then some .pc
  else if c = 0x1D#5 then some .ex
  else if c = 0x1E#5 then some (.abs n)
  else none

/-- A b code as an operand (R73): 0x18 is PUSH, 0x1F the literal that no instruction can write. -/
def decodeDst (c : BitVec 5) (n : Word) : Dst :=
  if c = 0x18#5 then .push
  else match placeOfCode c n with
    | some p => .place p
    | none => .literal n

/-- An a code as an operand (R73): 0x18 is POP, 0x1F the long literal, 0x20–0x3F small literals. -/
def decodeSrc (c : BitVec 6) (n : Word) : Src :=
  let k := c.extractLsb' 0 5
  if 0x20#6 ≤ c then .small k
  else if k = 0x18#5 then .pop
  else match placeOfCode k n with
    | some p => .place p
    | none => .literal n

/-! ### The decode function (R77 to R80) -/

/-- Why a word is no instruction (R79). -/
inductive Invalid where
  /-- `UnknownOpcode(o)`: a non-zero opcode outside the defined set (R80) -/
  | unknownOpcode (o : BitVec 5)
  /-- `UnknownSpecial(s)`: opcode 0 with a special code other than 0x01 (R78) -/
  | unknownSpecial (s : BitVec 5)
  deriving DecidableEq, Repr

/-- What a word decodes to. An invalid word keeps its operands, because they are resolved before the
fault is raised (R79). -/
inductive Decoded where
  | instr (i : Instr)
  | invalid (why : Invalid) (b : Dst) (a : Src)
  deriving DecidableEq, Repr

/-- The basic opcodes (R77, `OPCODE_MAP`, decision D2, log 8). `none` for 0x00, the special family, and
for the seventeen reserved values (R80). -/
def basicOfOpcode (o : BitVec 5) (b : Dst) (a : Src) : Option Instr :=
  match o with
  | 0x01#5 => some (.set b a)
  | 0x02#5 => some (.add b a)
  | 0x03#5 => some (.sub b a)
  | 0x04#5 => some (.mul b a)
  | 0x05#5 => some (.mli b a)
  | 0x06#5 => some (.div b a)
  | 0x07#5 => some (.dvi b a)
  | 0x08#5 => some (.mod b a)
  | 0x09#5 => some (.mdi b a)
  | 0x0A#5 => some (.and b a)
  | 0x0B#5 => some (.bor b a)
  | 0x0C#5 => some (.xor b a)
  | 0x12#5 => some (.ife b a)
  | 0x13#5 => some (.ifn b a)
  | _ => none

/-- JSR's special code, in the b field of opcode 0 (R78). -/
def jsrCode : BitVec 5 := 0x01#5

/-- The decode function (R79) on instruction word `w`, with `e₁` and `e₂` the two words after it:
b takes the first extra word it needs, a the next (R72). -/
def decode (w e₁ e₂ : Word) : Decoded :=
  let b := decodeDst (destinationField w) e₁
  let a := decodeSrc (sourceField w)
    (if takesExtra ((destinationField w).setWidth 6) then e₂ else e₁)
  if opcodeField w = 0x00#5 then
    if destinationField w = jsrCode then .instr (.jsr a)
    else .invalid (.unknownSpecial (destinationField w)) b a
  else
    match basicOfOpcode (opcodeField w) b a with
    | some i => .instr i
    | none => .invalid (.unknownOpcode (opcodeField w)) b a

/-! ### The encoder, from the same tables -/

/-- The code of a register form: the range's first code plus the register's id (R73). -/
def registerCode (base : BitVec 5) (r : Reg) : BitVec 5 := base + BitVec.ofNat 5 r.val

/-- The code of a shared form (R73). -/
def Place.code : Place → BitVec 5
  | .reg r => registerCode 0x00#5 r
  | .ind r => registerCode 0x08#5 r
  | .indDisp r _ => registerCode 0x10#5 r
  | .peek => 0x19#5
  | .pick _ => 0x1A#5
  | .sp => 0x1B#5
  | .pc => 0x1C#5
  | .ex => 0x1D#5
  | .abs _ => 0x1E#5

/-- The extra word of a shared form, if it has one (R74). -/
def Place.extra : Place → List Word
  | .indDisp _ n | .pick n | .abs n => [n]
  | .reg _ | .ind _ | .peek | .sp | .pc | .ex => []

/-- The b code (R73). -/
def Dst.code : Dst → BitVec 5
  | .place p => p.code
  | .push => 0x18#5
  | .literal _ => 0x1F#5

/-- The b operand's extra word, if it has one (R74). -/
def Dst.extra : Dst → List Word
  | .place p => p.extra
  | .push => []
  | .literal n => [n]

/-- The a code (R73). -/
def Src.code : Src → BitVec 6
  | .place p => p.code.setWidth 6
  | .pop => 0x18#6
  | .literal _ => 0x1F#6
  | .small k => 0x20#6 + k.setWidth 6

/-- The a operand's extra word, if it has one (R74). -/
def Src.extra : Src → List Word
  | .place p => p.extra
  | .pop => []
  | .literal n => [n]
  | .small _ => []

/-- The opcode field (R77; 0x00 for the special family, R78). -/
def Instr.opcode : Instr → BitVec 5
  | .set .. => 0x01#5
  | .add .. => 0x02#5
  | .sub .. => 0x03#5
  | .mul .. => 0x04#5
  | .mli .. => 0x05#5
  | .div .. => 0x06#5
  | .dvi .. => 0x07#5
  | .mod .. => 0x08#5
  | .mdi .. => 0x09#5
  | .and .. => 0x0A#5
  | .bor .. => 0x0B#5
  | .xor .. => 0x0C#5
  | .ife .. => 0x12#5
  | .ifn .. => 0x13#5
  | .jsr _ => 0x00#5

/-- The instruction word of an instruction (R71). -/
def Instr.word (i : Instr) : Word := instructionWord i.opcode i.dst.code i.src.code

/-- The words of an instruction: the instruction word, b's extra word, a's extra word (R72). -/
def encode (i : Instr) : List Word := i.word :: (i.dst.extra ++ i.src.extra)

/-- The instruction's length in words, `1 + ext(b) + ext(a)` (R76). -/
def Instr.length (i : Instr) : Nat := 1 + i.dst.extra.length + i.src.extra.length

/-! ### The host's question -/

/-- The word of bits `16k` to `16k+15` of a number whose bits above `nbits` count as 0. -/
def tableWord (nbits w k : Nat) : Word := BitVec.ofNat 16 ((w % 2 ^ nbits) >>> (16 * k))

/-- What the decoder reads from the instruction whose bits are `w`, numbered as
spec/opcode_table.json numbers them: bits 15..0 are the instruction word, then the extra words. -/
def decodeTableWord (nbits w : Nat) : Option Instr :=
  match decode (tableWord nbits w 0) (tableWord nbits w 1) (tableWord nbits w 2) with
  | .instr i => some i
  | .invalid .. => none

end Sys2Proof
end

