-- ==== Sys2Proof/Machine/State.lean ====
section
/-! DEFINITION. The machine's state, its reset value, and the reasons a step can stop
(spec/10_state.md R20, R34, R37; spec/60_exceptions.md R221). -/

namespace Sys2Proof.Machine

/-- Memory: 65536 words of 16 bits (spec/10_state.md R31), listed as (address, byte) cells in one
canonical form (log 1): word `a` is cells `2a` (low byte) and `2a+1` (high byte), as in a program file
(spec/20_memory.md R52); cells rise strictly, and no cell holds what an unlisted one reads as. The
model reaches it only through `Memory.read` and `Memory.write`, a word at a time. -/
abbrev Memory := List Host.Cell

/-- The instruction that divided by zero (spec/60_exceptions.md R221). -/
inductive DivOp where
  | mod
  | mdi
  deriving DecidableEq, Repr

/-- The closed enumeration of fault reasons (spec/60_exceptions.md R221, decision D17, log 6). -/
inductive FaultReason where
  /-- b = 0x1F (R222) -/
  | literalDestination
  /-- a non-zero opcode outside the defined set (R223) -/
  | unknownOpcode (o : BitVec 5)
  /-- opcode 0 with a special code other than 0x01 (R224) -/
  | unknownSpecial (s : BitVec 5)
  /-- MOD or MDI with S = 0 (R225) -/
  | divideByZero (op : DivOp)
  deriving DecidableEq, Repr

/-- The run status (spec/10_state.md R37, decision D16, log 26). A fault records the instruction
word's address and the word itself (spec/60_exceptions.md R221). -/
inductive RunStatus where
  | running
  | halted
  | faulted (reason : FaultReason) (address word : Word)
  deriving DecidableEq, Repr

/-- The state aggregate (spec/10_state.md R20), with the run status (R37) and the program length N the
run loop compares PC with (spec/00_scope.md R8; log 2). -/
structure State where
  /-- the general registers, ids 0 to 7 (R21) -/
  x : Vector Word 8
  /-- the stack pointer (R24) -/
  sp : Word
  /-- the program counter: the address of the next word not yet consumed (R25) -/
  pc : Word
  /-- the extra/overflow register (R26) -/
  ex : Word
  /-- the pending-skip flag (R27) -/
  skip : Bool
  /-- the addressable word space (R31) -/
  mem : Memory
  /-- the run status (R37) -/
  status : RunStatus
  /-- N, the word count of the loaded image, 0 to 65536 (R8, spec/70_reset_and_hazards.md R252) -/
  programLength : Nat
  deriving DecidableEq, Repr

/-- What stops a step with a fault (spec/60_exceptions.md R220, R221). Each carries the machine's final
state: the status set to `faulted`, PC and SP as resolution left them, all else as before
(R130, R229, log 6). -/
inductive Fault where
  /-- Raised by every instruction word with b = 0x1F, in resolution, skipped or not (R222). Safe: the
  model stops where other hardware might accept the literal (log 15). -/
  | literalDestination (final : State)
  /-- Raised at dispatch by a reserved opcode that is not skipped (R223). Unsafe only as the opcode
  numbers are (log 8). -/
  | unknownOpcode (o : BitVec 5) (final : State)
  /-- Raised at dispatch by opcode 0 with a special code other than 0x01, not skipped (R224). Safe. -/
  | unknownSpecial (s : BitVec 5) (final : State)
  /-- Raised in the execute phase by MOD or MDI with S = 0, not skipped (R225). Safe: the model stops
  where other hardware might give 0 (log 13). -/
  | divideByZero (op : DivOp) (final : State)
  deriving DecidableEq, Repr

/-- What the model has no meaning for. -/
inductive Refusal where
  /-- Raised by an arm of `exec` for an instruction that has no meaning yet. Safe. No arm does. -/
  | notModelled (mnemonic : String)
  /-- Raised by `step` when the status is halted or faulted: the host must not request a step then
  (spec/10_state.md R37, R42; log 5). Safe: the spec gives no such run. -/
  | runEnded
  deriving DecidableEq, Repr

/-- The state after the load of the empty image (spec/10_state.md R34, R40;
spec/70_reset_and_hazards.md R250): PC = 0, SP = 0xFFFF, every other register and EX 0, skip false
(log 20), memory with nothing listed, which reads as zero (log 19), status running (log 26), N = 0
(log 3). -/
def State.reset : State where
  x := Vector.replicate 8 0
  sp := 0xFFFF
  pc := 0x0000
  ex := 0x0000
  skip := false
  mem := []
  status := .running
  programLength := 0

end Sys2Proof.Machine
end

