-- ==== Sys2Proof/Machine/Ops.lean ====
section
/-! DEFINITION. The named operations over memory, registers and locations, the word-fetch primitive,
and raising a fault (spec/00_scope.md R9 to R15; spec/20_memory.md R50; spec/60_exceptions.md R220).

There is no return from a fault: faults are terminal and there is no trap mechanism (R228, R230). -/

namespace Sys2Proof.Machine

/-- What a step or an instruction answers. -/
abbrev Result := Host.Outcome State Fault Refusal

/-! ### Numbers and words (R9 to R12) -/

/-- `w16(v) = v mod 65536` (spec/00_scope.md R9). -/
def w16 (v : Int) : Word := BitVec.ofInt 16 v

/-- `zext_16(w)`: a word read as unsigned (R10). -/
def zext16 (w : Word) : Int := w.toNat

/-- `sext_16(w)`: a word read as signed, two's complement (R10). -/
def sext16 (w : Word) : Int := w.toInt

/-- `w16(t >> 16)`, the high half of an exact result; `>>` rounds toward minus infinity (R11). -/
def highWord (t : Int) : Word := w16 (t >>> (16 : Nat))

/-! ### Memory, by bytes (log 1) -/

/-- The byte cells of the address space: two to each of the 65536 words (R31). -/
def Memory.cells : Nat := 2 * 65536

/-- What an unlisted cell reads as: memory outside the image is zero (spec/10_state.md R34, the spec's
decision D4, log 19). -/
def Memory.unlisted : Byte := 0

/-- The byte in cell `k`. -/
def Memory.byte : Memory → Nat → Byte
  | [], _ => Memory.unlisted
  | (k', v) :: m, k => if k = k' then v else Memory.byte m k

/-- Memory with byte `v` in cell `k`, in the canonical form. -/
def Memory.setByte : Memory → Nat → Byte → Memory
  | [], k, v => if v = Memory.unlisted then [] else [(k, v)]
  | (k', v') :: m, k, v =>
    if k < k' then
      if v = Memory.unlisted then (k', v') :: m else (k, v) :: (k', v') :: m
    else if k = k' then
      if v = Memory.unlisted then m else (k, v) :: m
    else (k', v') :: Memory.setByte m k v

/-- The canonical form: cells rise strictly, none holds the unlisted value, all lie in the space. -/
abbrev Memory.wf (m : Memory) : Prop :=
  m.Pairwise (fun c d => c.1 < d.1) ∧ ∀ c ∈ m, c.2 ≠ Memory.unlisted ∧ c.1 < Memory.cells

/-! ### Memory, by words (spec/20_memory.md R50) -/

/-- `MemRead(a, 1)` -/
def Memory.read (m : Memory) (a : Word) : Word :=
  m.byte (2 * a.toNat + 1) ++ m.byte (2 * a.toNat)

/-- `MemWrite(a, 1, v)` -/
def Memory.write (m : Memory) (a v : Word) : Memory :=
  (m.setByte (2 * a.toNat) (v.extractLsb' 0 8)).setByte (2 * a.toNat + 1) (v.extractLsb' 8 8)

/-- Words written one after another from address `a`, which wraps (R51). -/
def Memory.writeWords (m : Memory) (a : Word) : List Word → Memory
  | [] => m
  | v :: vs => Memory.writeWords (m.write a v) (a + 1) vs

/-! ### One update per field of the state -/

def State.setX (s : State) (v : Vector Word 8) : State := { s with x := v }
def State.setSp (s : State) (v : Word) : State := { s with sp := v }
def State.setPc (s : State) (v : Word) : State := { s with pc := v }
def State.setEx (s : State) (v : Word) : State := { s with ex := v }
def State.setSkip (s : State) (v : Bool) : State := { s with skip := v }
def State.setMem (s : State) (v : Memory) : State := { s with mem := v }
def State.setStatus (s : State) (v : RunStatus) : State := { s with status := v }
def State.setProgramLength (s : State) (v : Nat) : State := { s with programLength := v }

/-- `x[i]` (R13) -/
def State.reg (s : State) (i : Reg) : Word := s.x[i]

/-- `x[i] <- v` (R13) -/
def State.setReg (s : State) (i : Reg) (v : Word) : State := s.setX (s.x.set i v)

/-- `nextWord()`: the word at PC, with PC moved on by one, modulo 65536 (spec/00_scope.md R15). -/
def State.nextWord (s : State) : Word × State := (s.mem.read s.pc, s.setPc (s.pc + 1))

/-- The part of `nextWord()` an operand's resolution is left with, its extra word having been decoded
with the instruction (log 25): PC moves on by one. -/
def State.consumeExtra (s : State) : State := s.nextWord.2

/-! ### Locations and operand references (R14) -/

/-- A location: a general register, SP, PC, EX, or a memory word. -/
inductive Loc where
  | reg (i : Reg)
  | sp
  | pc
  | ex
  | mem (a : Word)
  deriving DecidableEq, Repr

/-- An operand reference: a read-only word, or a location. -/
inductive Ref where
  | value (w : Word)
  | loc (l : Loc)
  deriving DecidableEq, Repr

/-- `read(l)` (R14) -/
def State.readLoc (s : State) : Loc → Word
  | .reg i => s.reg i
  | .sp => s.sp
  | .pc => s.pc
  | .ex => s.ex
  | .mem a => s.mem.read a

/-- `write(l, v)` (R14); "to D" writes the location whatever it is (spec/41_dispatch.md R128). -/
def State.writeLoc (s : State) (l : Loc) (v : Word) : State :=
  match l with
  | .reg i => s.setReg i v
  | .sp => s.setSp v
  | .pc => s.setPc v
  | .ex => s.setEx v
  | .mem a => s.setMem (s.mem.write a v)

/-- `val(r)`: a value as it is, a location's word when it is asked for (R14, spec/40_operands.md
R107, decision D8, log 18). -/
def State.val (s : State) : Ref → Word
  | .value w => w
  | .loc l => s.readLoc l

/-! ### Raising a fault -/

/-- `raise F(info)`: the step ends, the run status records the reason, the instruction word's address
and the word (spec/60_exceptions.md R220, R221), and `s`, the state resolution left, is otherwise final
(spec/41_dispatch.md R130, spec/60_exceptions.md R229). -/
def raise (reason : FaultReason) (address word : Word) (s : State) : Result :=
  let final := s.setStatus (.faulted reason address word)
  match reason with
  | .literalDestination => .fault (.literalDestination final)
  | .unknownOpcode o => .fault (.unknownOpcode o final)
  | .unknownSpecial c => .fault (.unknownSpecial c final)
  | .divideByZero op => .fault (.divideByZero op final)

end Sys2Proof.Machine
end

