-- ==== Sys2Proof/Machine/Operands.lean ====
section
/-! DEFINITION. The operand resolver (spec/40_operands.md), the skip test that follows it, and the
execute phase every basic instruction shares (spec/41_dispatch.md R123, R124, R127).

The state these functions are given is the one after the instruction word was fetched: PC is its
address plus one (R121, log 25). -/

namespace Sys2Proof.Machine

/-! ### The resolver -/

/-- The codes both positions share (R92 to R94, R97 to R102). Registers and SP are read now (R106). -/
def resolvePlace (p : Place) (s : State) : Loc × State :=
  match p with
  | .reg r => (.reg r, s)
  | .ind r => (.mem (s.reg r), s)
  | .indDisp r n => (.mem (s.reg r + n), s.consumeExtra)
  | .peek => (.mem s.sp, s)
  | .pick n => (.mem (s.sp + n), s.consumeExtra)
  | .sp => (.sp, s)
  | .pc => (.pc, s)
  | .ex => (.ex, s)
  | .abs n => (.mem n, s.consumeExtra)

/-- `resolve(b, true)`: PUSH decrements SP and names the memory at the new SP (R95); a literal has no
location (R104). -/
def resolveDst (b : Dst) (s : State) : Option (Loc × State) :=
  match b with
  | .place p => some (resolvePlace p s)
  | .push => some (.mem (s.sp - 1), s.setSp (s.sp - 1))
  | .literal _ => none

/-- The value of a small literal, `w16(code − 0x21)`, by the code's low five bits (R105). -/
def smallLiteral (k : BitVec 5) : Word := w16 ((0x20 + k.toNat : Int) - 0x21)

/-- `resolve(a, false)`: POP names the memory at SP and then increments SP (R96); literals are values
(R103, R105). -/
def resolveSrc (a : Src) (s : State) : Ref × State :=
  match a with
  | .place p => (.loc (resolvePlace p s).1, (resolvePlace p s).2)
  | .pop => (.loc (.mem s.sp), s.setSp (s.sp + 1))
  | .literal n => (.value n, s.consumeExtra)
  | .small k => (.value (smallLiteral k), s)

/-- Both operands, b completely before a (R91): b's location, a's reference, and the state resolution
leaves. `none` when b is a literal. -/
def resolveBoth (b : Dst) (a : Src) (s : State) : Option (Loc × Ref × State) :=
  match resolveDst b s with
  | none => none
  | some (ld, s₁) => some (ld, (resolveSrc a s₁).1, (resolveSrc a s₁).2)

/-- The state a LiteralDestination fault leaves: whether b's extra word was consumed is a free value
(R104, decision D21, log 16). -/
def literalDestinationState (s : State) : State :=
  if Config.literalDestinationTakesExtra then s.consumeExtra else s

/-! ### Resolution, then the skip test -/

/-- Steps (2) and (3) of spec/41_dispatch.md R120 for the instruction word `w`: resolve b, then a; a
literal b faults, skipped or not (R104, R110); a pending skip is cleared and ends the step (R124);
otherwise `act` goes on with b's location, a's reference and the state resolution left. -/
def withOperands (w : Word) (b : Dst) (a : Src) (act : Loc → Ref → State → Result) (s : State) :
    Result :=
  match resolveBoth b a s with
  | none => raise .literalDestination (s.pc - 1) w (literalDestinationState s)
  | some (ld, ra, t) => if t.skip then .next (t.setSkip false) else act ld ra t

/-! ### The execute phase (R127) -/

/-- What an instruction's semantics ask for: the word to write to D, if it writes D; the word to leave
in EX, if it writes EX; whether it requests a skip. -/
structure Effect where
  result : Option Word := none
  exOut : Option Word := none
  skip : Bool := false
  deriving DecidableEq, Repr

/-- The writes of the execute phase: D first, EX after it (`EX_WRITE_ORDER`, decision D9, log 9), then
a requested skip. -/
def State.applyEffect (s : State) (ld : Loc) (e : Effect) : State :=
  let s₁ := match e.result with
    | some v => s.writeLoc ld v
    | none => s
  let s₂ := match e.exOut with
    | some v => s₁.setEx v
    | none => s₁
  if e.skip then s₂.setSkip true else s₂

/-- A basic instruction: its operands, the skip test, then `semantics(op, D, S)` with both words read
before any write. A fault of the semantics leaves D, EX and skip unwritten (R127, R130). -/
def executeBasic (i : Instr) (semantics : Word → Word → Except FaultReason Effect) (s : State) :
    Result :=
  withOperands i.word i.dst i.src
    (fun ld ra t =>
      match semantics (t.readLoc ld) (t.val ra) with
      | .ok e => .next (t.applyEffect ld e)
      | .error reason => raise reason (s.pc - 1) i.word t)
    s

end Sys2Proof.Machine
end

