-- ==== Sys2Proof/Machine/Flags.lean ====
section
/-! DEFINITION. What the instructions compute: results, EX and the skip request, as functions of D and
S. The block has no flag but `skip`; carry, borrow and high halves go to EX (spec/10_state.md R26 to
R28; spec/42_arith.md R160 to R163). -/

namespace Sys2Proof.Machine

/-- Write the low half of the exact result to D and leave EX alone. -/
def resultOnly (t : Int) : Effect := { result := some (w16 t) }

/-- Write the low half of the exact result to D and its high half to EX: "masked to 16 bits before
storage, with the high-order overflow/carry bits captured into ex" (spec/42_arith.md R160). -/
def resultAndEx (t : Int) : Effect := { result := some (w16 t), exOut := some (highWord t) }

/-- DIV's effect (R156): zero and EX zero for S = 0, otherwise the unsigned quotient and `DIV_EX`. -/
def divEffect (D S : Word) : Effect :=
  if S = 0 then { result := some 0, exOut := some 0 }
  else { result := some (w16 (zext16 D / zext16 S)), exOut := some (Config.divEx D S) }

/-- DVI's effect (R157): zero and EX zero for S = 0, otherwise the signed quotient truncated toward
zero (decision D11, log 12) and `DVI_EX`. -/
def dviEffect (D S : Word) : Effect :=
  if S = 0 then { result := some 0, exOut := some 0 }
  else { result := some (w16 ((sext16 D).tdiv (sext16 S))), exOut := some (Config.dviEx D S) }

/-- MOD (R158): the unsigned remainder; S = 0 faults (decision D12, log 13). -/
def modEffect (D S : Word) : Except FaultReason Effect :=
  if S = 0 then .error (.divideByZero .mod) else .ok (resultOnly (zext16 D % zext16 S))

/-- MDI (R159): the signed remainder with the sign of D (decision D13, log 12); S = 0 faults (decision
D12, log 13). -/
def mdiEffect (D S : Word) : Except FaultReason Effect :=
  if S = 0 then .error (.divideByZero .mdi)
  else .ok (resultOnly ((sext16 D).tmod (sext16 S)))

/-- The extra 1 that SUB takes off when its b operand is PC itself, code 0x1C (R153, decision D14,
log 14). -/
def subPcExtra (b : Dst) : Int := if b = .place .pc then 1 else 0

/-- Write nothing, and request a skip when the condition fails (spec/44_conditional.md R200, R201). -/
def skipUnless (condition : Bool) : Effect := { skip := !condition }

end Sys2Proof.Machine
end

