-- ==== Sys2Proof/Machine/Arith.lean ====
section
/-! DEFINITION. SET and the arithmetic instructions (spec/42_arith.md). -/

namespace Sys2Proof.Machine

/-- SET (R150): D becomes S; EX unchanged. -/
def execSet (b : Dst) (a : Src) (s : State) : Result :=
  executeBasic (.set b a) (fun _ S => .ok { result := some S }) s

/-- ADD (R151): D + S, the carry in EX. -/
def execAdd (b : Dst) (a : Src) (s : State) : Result :=
  executeBasic (.add b a) (fun D S => .ok (resultAndEx (zext16 D + zext16 S))) s

/-- SUB (R152), and SUB PC with its extra −1 (R153): the borrow in EX. -/
def execSub (b : Dst) (a : Src) (s : State) : Result :=
  executeBasic (.sub b a) (fun D S => .ok (resultAndEx (zext16 D - zext16 S - subPcExtra b))) s

/-- MUL (R154): the unsigned product, its high half in EX. -/
def execMul (b : Dst) (a : Src) (s : State) : Result :=
  executeBasic (.mul b a) (fun D S => .ok (resultAndEx (zext16 D * zext16 S))) s

/-- MLI (R155): the signed product, its high half in EX. -/
def execMli (b : Dst) (a : Src) (s : State) : Result :=
  executeBasic (.mli b a) (fun D S => .ok (resultAndEx (sext16 D * sext16 S))) s

/-- DIV (R156): unsigned; division by zero gives 0 and EX = 0. -/
def execDiv (b : Dst) (a : Src) (s : State) : Result :=
  executeBasic (.div b a) (fun D S => .ok (divEffect D S)) s

/-- DVI (R157): signed; division by zero gives 0 and EX = 0. -/
def execDvi (b : Dst) (a : Src) (s : State) : Result :=
  executeBasic (.dvi b a) (fun D S => .ok (dviEffect D S)) s

/-- MOD (R158): unsigned remainder; S = 0 raises DivideByZero(MOD); EX unchanged. -/
def execMod (b : Dst) (a : Src) (s : State) : Result :=
  executeBasic (.mod b a) modEffect s

/-- MDI (R159): signed remainder; S = 0 raises DivideByZero(MDI); EX unchanged. -/
def execMdi (b : Dst) (a : Src) (s : State) : Result :=
  executeBasic (.mdi b a) mdiEffect s

end Sys2Proof.Machine
end

