-- ==== Sys2Proof/Machine/Bitwise.lean ====
section
/-! DEFINITION. The bitwise instructions (spec/43_bitwise.md). EX is unchanged by each. -/

namespace Sys2Proof.Machine

/-- AND (R190) -/
def execAnd (b : Dst) (a : Src) (s : State) : Result :=
  executeBasic (.and b a) (fun D S => .ok { result := some (D &&& S) }) s

/-- BOR (R191) -/
def execBor (b : Dst) (a : Src) (s : State) : Result :=
  executeBasic (.bor b a) (fun D S => .ok { result := some (D ||| S) }) s

/-- XOR (R192) -/
def execXor (b : Dst) (a : Src) (s : State) : Result :=
  executeBasic (.xor b a) (fun D S => .ok { result := some (D ^^^ S) }) s

end Sys2Proof.Machine
end

