-- ==== Sys2Proof/Machine/Conditional.lean ====
section
/-! DEFINITION. The conditional instructions (spec/44_conditional.md). They write no location and no
EX; b is resolved as a destination and only read. -/

namespace Sys2Proof.Machine

/-- IFE (R200): the next instruction runs only if D = S. -/
def execIfe (b : Dst) (a : Src) (s : State) : Result :=
  executeBasic (.ife b a) (fun D S => .ok (skipUnless (D = S))) s

/-- IFN (R201): the next instruction runs only if D ≠ S. -/
def execIfn (b : Dst) (a : Src) (s : State) : Result :=
  executeBasic (.ifn b a) (fun D S => .ok (skipUnless (D ≠ S))) s

end Sys2Proof.Machine
end

