-- ==== Sys2Proof/Machine/Special.lean ====
section
/-! DEFINITION. The special family and the words that are no instruction (spec/45_special.md;
spec/30_encoding.md R79, R80). -/

namespace Sys2Proof.Machine

/-- JSR (R211): PC becomes the source's value; nothing is pushed. The b field holds the special code
0x01 and resolves as register 1, which changes nothing (spec/41_dispatch.md R123, log 17). -/
def execJsr (a : Src) (s : State) : Result :=
  withOperands (Instr.jsr a).word (Instr.jsr a).dst a (fun _ ra t => .next (t.setPc (t.val ra))) s

/-- The reason an invalid word faults with (R79). -/
def invalidReason : Invalid → FaultReason
  | .unknownOpcode o => .unknownOpcode o
  | .unknownSpecial c => .unknownSpecial c

/-- An invalid word `w`: its operands are resolved like any other's, it is consumed without a fault when
skipped, and otherwise faults at dispatch (spec/41_dispatch.md R123 to R126; R212). -/
def execInvalid (why : Invalid) (w : Word) (b : Dst) (a : Src) (s : State) : Result :=
  withOperands w b a (fun _ _ t => raise (invalidReason why) (s.pc - 1) w t) s

end Sys2Proof.Machine
end

