-- ==== Sys2Proof/Machine/Dispatch.lean ====
section
/-! DEFINITION. One arm per instruction (spec/41_dispatch.md R126). The state an arm is given is the one
after the instruction word was fetched (R121, log 25). -/

namespace Sys2Proof.Machine

def exec (i : Instr) (s : State) : Host.Outcome State Fault Refusal :=
  match i with
  | .set b a => Sys2Proof.Machine.execSet b a s
  | .add b a => Sys2Proof.Machine.execAdd b a s
  | .sub b a => Sys2Proof.Machine.execSub b a s
  | .mul b a => Sys2Proof.Machine.execMul b a s
  | .mli b a => Sys2Proof.Machine.execMli b a s
  | .div b a => Sys2Proof.Machine.execDiv b a s
  | .dvi b a => Sys2Proof.Machine.execDvi b a s
  | .mod b a => Sys2Proof.Machine.execMod b a s
  | .mdi b a => Sys2Proof.Machine.execMdi b a s
  | .and b a => Sys2Proof.Machine.execAnd b a s
  | .bor b a => Sys2Proof.Machine.execBor b a s
  | .xor b a => Sys2Proof.Machine.execXor b a s
  | .ife b a => Sys2Proof.Machine.execIfe b a s
  | .ifn b a => Sys2Proof.Machine.execIfn b a s
  | .jsr a => Sys2Proof.Machine.execJsr a s

end Sys2Proof.Machine
end

