-- ==== Sys2Proof/Machine/Dispatcher.lean ====
section
/-! DEFINITION. The dispatcher's step and the run loop's turn (spec/41_dispatch.md R120 to R134), and
what it takes to put a word where the next step fetches. -/

namespace Sys2Proof.Machine

/-- What an instruction word decodes to in the state after its fetch: the two words at PC are the extra
words it may take (spec/30_encoding.md R72; reading them has no side effect, spec/20_memory.md R56). -/
def decodeNext (w : Word) (s : State) : Decoded :=
  decode w (s.mem.read s.pc) (s.mem.read (s.pc + 1))

/-- Steps (2) to (4) of R120 for the fetched word `w`. -/
def dispatch (w : Word) (s : State) : Result :=
  match decodeNext w s with
  | .instr i => exec i s
  | .invalid why b a => execInvalid why w b a s

/-- The block's `step` (R120, spec/10_state.md R39): fetch, then dispatch. It looks at neither the run
status nor N. -/
def dispatcherStep (s : State) : Result := dispatch s.nextWord.1 s.nextWord.2

/-- The run loop's test `PC < N`, on the unsigned PC (R131). -/
def State.inProgram (s : State) : Bool := s.pc.toNat < s.programLength

/-- One turn of the run loop (R131): while the status is running, the test `PC < N` and then the block's
step, or the status set to halted; after the end of the run, no step (spec/10_state.md R37, R42). -/
def runTurn (s : State) : Result :=
  match s.status with
  | .running => if s.inProgram then dispatcherStep s else .next (s.setStatus .halted)
  | .halted => .refused .runEnded
  | .faulted .. => .refused .runEnded

/-- The words written at PC, with what the next turn of the run loop needs to fetch there: a running
status and N above PC (log 21). -/
def State.placeAtPc (s : State) (words : List Word) : State :=
  let s₁ := (s.setMem (s.mem.writeWords s.pc words)).setStatus .running
  if s₁.inProgram then s₁ else s₁.setProgramLength (s.pc.toNat + 1)

end Sys2Proof.Machine
end

