-- ==== Sys2Proof/Machine/HostPort.lean ====
section
/-! DEFINITION. The host's other operations: `load` and `inspect` (spec/10_state.md R38 to R42), and the
loader's reading of a program file (spec/20_memory.md R52). -/

namespace Sys2Proof.Machine

/-- `load(words)` (spec/10_state.md R34, R40): the reset state with the image from address 0 on. An image
of more than 65536 words is refused (spec/70_reset_and_hazards.md R252, decision D19, log 23). -/
def load (words : List Word) : Option State :=
  if words.length ≤ 65536 then
    some ((State.reset.setMem (Memory.writeWords [] 0 words)).setProgramLength words.length)
  else none

/-- The words of a program file, "consecutive 16-bit little-endian words (low byte first), no header"
(spec/20_memory.md R52). A file of odd length is refused (decision D20, log 23). -/
def fileWords : List Byte → Option (List Word)
  | [] => some []
  | [_] => none
  | lo :: hi :: rest =>
    match fileWords rest with
    | some ws => some ((hi ++ lo) :: ws)
    | none => none

/-- What the inspection port shows: all registers, EX and the full memory array. The source does not
list `skip` (spec/10_state.md R41). -/
structure Inspection where
  x : Vector Word 8
  sp : Word
  pc : Word
  ex : Word
  mem : Memory
  deriving DecidableEq, Repr

/-- `inspect`: a read-only copy (R41); it answers no state, so it cannot change one. -/
def State.inspect (s : State) : Inspection :=
  { x := s.x, sp := s.sp, pc := s.pc, ex := s.ex, mem := s.mem }

end Sys2Proof.Machine
end

