-- ==== Sys2Proof/Machine/Step.lean ====
section
/-! DEFINITION. The machine's step: one turn of the run loop (spec/41_dispatch.md R131, log 4). -/

namespace Sys2Proof.Machine

/-- One step of the machine. -/
def step (s : State) : Host.Outcome State Fault Refusal := runTurn s

/-- `s` with the instruction whose bits are `w` (bits above `nbits` zero) where the next step fetches:
three words at PC, the longest instruction's length (spec/30_encoding.md R76; log 21). -/
def State.withFetchWord (s : State) (nbits w : Nat) : State :=
  s.placeAtPc [tableWord nbits w 0, tableWord nbits w 1, tableWord nbits w 2]

end Sys2Proof.Machine
end

