-- ==== Sys2Proof/Safety.lean ====
section
/-! DEFINITION. What claims are stated in: the outcomes by name, the final state a fault leaves, the
invariant of every step, and which instructions write D and EX. -/

namespace Sys2Proof.Machine

/-- The state a result goes on with, if it goes on. -/
def nextOf : Result → Option State
  | .next s => some s
  | .fault _ => none
  | .refused _ => none

/-- The fault a result stops with, if it is one. -/
def faultOf : Result → Option Fault
  | .next _ => none
  | .fault f => some f
  | .refused _ => none

/-- The machine's final state after a fault (spec/60_exceptions.md R229). -/
def Fault.final : Fault → State
  | .literalDestination t => t
  | .unknownOpcode _ t => t
  | .unknownSpecial _ t => t
  | .divideByZero _ t => t

/-- The reason of a fault (spec/60_exceptions.md R221). -/
def Fault.reason : Fault → FaultReason
  | .literalDestination _ => .literalDestination
  | .unknownOpcode o _ => .unknownOpcode o
  | .unknownSpecial c _ => .unknownSpecial c
  | .divideByZero op _ => .divideByZero op

/-- What stands at PC: the word there and the two after it, decoded (spec/00_scope.md R15,
spec/30_encoding.md R72). -/
def State.decoded (s : State) : Decoded :=
  decode (s.mem.read s.pc) (s.mem.read (s.pc + 1)) (s.mem.read (s.pc + 2))

/-- The status is running and PC < N: the next step fetches (spec/41_dispatch.md R131). -/
def State.fetches (s : State) : Prop := s.status = .running ∧ s.pc.toNat < s.programLength

/-- The invariant of the machine between steps: memory in its canonical form (log 1), N at most 65536
(spec/70_reset_and_hazards.md R252), a halted run at PC ≥ N (spec/41_dispatch.md R132), and no faulted
status, which only a fault's final state has (spec/60_exceptions.md R220). -/
structure State.Inv (s : State) : Prop where
  mem_wf : s.mem.wf
  length_le : s.programLength ≤ 65536
  halted_pc : s.status = .halted → s.programLength ≤ s.pc.toNat
  not_faulted : ∀ reason address word, s.status ≠ .faulted reason address word

end Sys2Proof.Machine

namespace Sys2Proof

/-- The b operand of what a word decodes to (spec/30_encoding.md R79). -/
def Decoded.dst : Decoded → Dst
  | .instr i => i.dst
  | .invalid _ b _ => b

/-- The a operand of what a word decodes to. -/
def Decoded.src : Decoded → Src
  | .instr i => i.src
  | .invalid _ _ a => a

/-- The words an instruction takes, `1 + ext(b) + ext(a)` (spec/30_encoding.md R76), for an invalid word
too (R79). -/
def Decoded.length (d : Decoded) : Nat := 1 + d.dst.extra.length + d.src.extra.length

/-- What resolving b takes off SP: 1 for PUSH (spec/40_operands.md R95). -/
def Dst.pushed : Dst → Word
  | .place _ => 0
  | .push => 1
  | .literal _ => 0

/-- What resolving a adds to SP: 1 for POP (spec/40_operands.md R96). -/
def Src.popped : Src → Word
  | .place _ => 0
  | .pop => 1
  | .literal _ => 0
  | .small _ => 0

/-- The instructions that write their destination location: every basic one but IFE and IFN
(spec/10_state.md R23, R26). -/
def Instr.writesD : Instr → Bool
  | .set .. | .add .. | .sub .. | .mul .. | .mli .. | .div .. | .dvi .. | .mod .. | .mdi ..
  | .and .. | .bor .. | .xor .. => true
  | .ife .. | .ifn .. | .jsr _ => false

/-- The instructions that write EX as a side effect (spec/10_state.md R26). -/
def Instr.writesEx : Instr → Bool
  | .add .. | .sub .. | .mul .. | .mli .. | .div .. | .dvi .. => true
  | .set .. | .mod .. | .mdi .. | .and .. | .bor .. | .xor .. | .ife .. | .ifn .. | .jsr _ => false

/-- MOD and MDI, the instructions that fault on S = 0 (spec/60_exceptions.md R225). -/
def Instr.dividesOrFaults : Instr → Option Machine.DivOp
  | .mod .. => some .mod
  | .mdi .. => some .mdi
  | .set .. | .add .. | .sub .. | .mul .. | .mli .. | .div .. | .dvi .. | .and .. | .bor ..
  | .xor .. | .ife .. | .ifn .. | .jsr _ => none

/-- The word an instruction that writes D writes there, by D and S, where b is not PC itself
(spec/42_arith.md, spec/43_bitwise.md). DVI's and MDI's signs are log 12; IFE, IFN and JSR write no D. -/
def Instr.result (i : Instr) (D S : Word) : Word :=
  match i with
  | .set .. => S
  | .add .. => D + S
  | .sub .. => D - S
  | .mul .. | .mli .. => D * S
  | .div .. => if S = 0 then 0 else D.udiv S
  | .dvi .. => if S = 0 then 0 else D.sdiv S
  | .mod .. => D.umod S
  | .mdi .. => D.srem S
  | .and .. => D &&& S
  | .bor .. => D ||| S
  | .xor .. => D ^^^ S
  | .ife .. | .ifn .. | .jsr _ => D

/-- `ext(c)` on a code's number, as spec/30_encoding.md R74 writes it out. -/
def extraWordsOfCode (c : Nat) : Nat :=
  if (0x10 ≤ c ∧ c ≤ 0x17) ∨ c = 0x1A ∨ c = 0x1E ∨ c = 0x1F then 1 else 0

end Sys2Proof
end

