-- ==== Sys2Proof/Certificates/Slice0/Obligations.lean ====
section
/-! DEFINITION. The statements for the provers. `s.skip = false` is the state in which an instruction
runs (spec/41_dispatch.md R127); `resolveBoth b a s = some (ld, ra, t)` names b's location, a's reference
and the state resolution leaves, and holds exactly when b is no literal; that both words are read in that
state is decision D8 (log 18). The state `exec` is given is
the one after the instruction word was fetched (log 25). -/

open Sys2Proof Sys2Proof.Machine

/-! ### Loading and reset -/

/-- spec/10_state.md R40: `load` fills memory[0..len) from the words, PC = 0, SP = 0xFFFF, all other
registers and EX 0. -/
def Obligations.LoadPlacesImageAndClearsRegisters : Prop :=
  ∀ words : List Word, words.length ≤ 65536 →
    ∃ s, load words = some s ∧
      (∀ (k : Nat) (h : k < words.length), s.mem.read (BitVec.ofNat 16 k) = words[k]) ∧
      s.pc = 0x0000 ∧ s.sp = 0xFFFF ∧ (∀ i : Reg, s.reg i = 0) ∧ s.ex = 0

/-- What the spec decides itself about `load`: zero memory after the image (D4, log 19), skip false (D5,
log 20), status running (D16, log 26), N the image's length (log 2), images over 65536 words refused
(D19, log 23). -/
def Obligations.LoadLeavesTheRestAsDecided : Prop :=
  (∀ (words : List Word) (s : State), load words = some s →
    (∀ k : Nat, words.length ≤ k → k < 65536 → s.mem.read (BitVec.ofNat 16 k) = 0) ∧
    s.skip = false ∧ s.status = .running ∧ s.programLength = words.length) ∧
  ∀ words : List Word, 65536 < words.length → load words = none

/-- The reset state is the load of the empty image (the model's choice, log 3). -/
def Obligations.ResetIsTheEmptyLoad : Prop := load [] = some State.reset

/-- The program file's bytes are little-endian words (spec/20_memory.md, section 2), and a file of odd
length is refused (decision D20, log 23). -/
def Obligations.FileBytesAreLittleEndianWords : Prop :=
  (∀ words : List Word,
    fileWords (words.flatMap fun w => [w.extractLsb' 0 8, w.extractLsb' 8 8]) = some words) ∧
  ∀ bytes : List Byte, bytes.length % 2 = 1 → fileWords bytes = none

/-! ### The invariant -/

/-- The invariant holds at reset. -/
def Obligations.InvariantHoldsAtReset : Prop := State.reset.Inv

/-- The invariant holds after every load. -/
def Obligations.InvariantHoldsAfterLoad : Prop :=
  ∀ (words : List Word) (s : State), load words = some s → s.Inv

/-- Every step keeps the invariant: canonical memory, N ≤ 65536, halted only at PC ≥ N, and a faulted
status only in a fault's final state. -/
def Obligations.EveryStepKeepsTheInvariant : Prop :=
  ∀ s t : State, s.Inv → step s = .next t → t.Inv

/-- N stays fixed for the run (spec/70_reset_and_hazards.md, section 1; log 2). -/
def Obligations.EveryStepKeepsTheProgramLength : Prop :=
  ∀ s t : State, step s = .next t → t.programLength = s.programLength

/-! ### Encoding -/

/-- Words that begin with the encoding of an instruction decode to it, whatever follows. Field layout
and opcode numbers are the spec's decisions D1 and D2 (logs 7, 8). -/
def Obligations.DecodingAnEncodingGivesTheInstruction : Prop :=
  ∀ (i : Instr) (w e₁ e₂ : Word), encode i <+: [w, e₁, e₂] → decode w e₁ e₂ = .instr i

/-- Each instruction has one encoding: what decodes to it begins with its words (logs 7, 8). -/
def Obligations.DecodedWordsAreTheEncoding : Prop :=
  ∀ (i : Instr) (w e₁ e₂ : Word), decode w e₁ e₂ = .instr i → encode i <+: [w, e₁, e₂]

/-- The reserved words are exactly these (spec/30_encoding.md, sections 4 and 5; decision D2, log 8):
opcodes 0x0D–0x11 and 0x14–0x1F, and opcode 0 with a special code other than 0x01. Each keeps its own
operands: the codes of its fields, and the extra words after it, b's before a's (sections 1 to 4; the
special family's b field too, decision D7, log 17). -/
def Obligations.ReservedWordsAreExactlyTheListedOnes : Prop :=
  ∀ w e₁ e₂ : Word,
    ((∃ b a, decode w e₁ e₂ = .invalid (.unknownOpcode (opcodeField w)) b a) ↔
      (0x0D ≤ (opcodeField w).toNat ∧ (opcodeField w).toNat ≤ 0x11) ∨
        0x14 ≤ (opcodeField w).toNat) ∧
    ((∃ b a, decode w e₁ e₂ = .invalid (.unknownSpecial (destinationField w)) b a) ↔
      opcodeField w = 0 ∧ destinationField w ≠ 1) ∧
    ∀ why b a, decode w e₁ e₂ = .invalid why b a →
      (why = .unknownOpcode (opcodeField w) ∨ why = .unknownSpecial (destinationField w)) ∧
      b.code = destinationField w ∧ a.code = sourceField w ∧ b.extra ++ a.extra <+: [e₁, e₂]

/-- A few words decode as spec/30_encoding.md section 7 and spec/45_special.md write them out. The
layout, the numbers and the operands of 0x0000 are logs 7, 8 and 17. -/
def Obligations.WrittenOutWordsDecode : Prop :=
  decode 0x7C01 0x0030 0 = .instr (.set (.place (.reg 0)) (.literal 0x0030)) ∧
  decode 0x7FC1 0x1000 0x0020 = .instr (.set (.place (.abs 0x1000)) (.literal 0x0020)) ∧
  decode 0x0412 0 0 = .instr (.ife (.place (.reg 0)) (.place (.reg 1))) ∧
  decode 0xC420 0 0 = .instr (.jsr (.small 17)) ∧
  decode 0x0000 0 0 = .invalid (.unknownSpecial 0) (.place (.reg 0)) (.place (.reg 0))

/-! ### The step and the run loop -/

/-- A running step with PC < N runs what stands at PC, in the state after the fetch of its word
(spec/41_dispatch.md, section 1). The split of the fetch is log 25, and a word that is no instruction
has operands by log 17. -/
def Obligations.StepRunsTheDecodedInstruction : Prop :=
  ∀ s : State, s.fetches →
    (∀ i, s.decoded = .instr i → step s = exec i (s.setPc (s.pc + 1))) ∧
    (∀ why b a, s.decoded = .invalid why b a →
      step s = execInvalid why (s.mem.read s.pc) b a (s.setPc (s.pc + 1)))

/-- spec/41_dispatch.md R131: PC < N is tested before each step; at PC ≥ N the status becomes halted; a
fault of the step makes it faulted with the fault's reason. -/
def Obligations.RunLoopTestsPcBeforeEachStep : Prop :=
  ∀ s : State, s.status = .running →
    (s.pc.toNat < s.programLength → step s = dispatcherStep s) ∧
    (s.programLength ≤ s.pc.toNat → step s = .next (s.setStatus .halted)) ∧
    ∀ f, step s = .fault f → ∃ address word, f.final.status = .faulted f.reason address word

/-- No step runs after the end of the run (spec/10_state.md, section 9); that the model refuses it by
the name `runEnded` is the model's choice (log 5). -/
def Obligations.EndedRunTakesNoStep : Prop :=
  (∀ s : State, s.status = .halted → step s = .refused .runEnded) ∧
  ∀ s f, step s = .fault f → step f.final = .refused .runEnded

/-- spec/41_dispatch.md R132: a run ends halted exactly when it reaches a step boundary with PC ≥ N, no
earlier step having faulted, and ends faulted exactly when a step faults. The halt is the model's own
step (log 4). -/
def Obligations.RunEndsHaltedExactlyAtABoundaryPastTheProgram : Prop :=
  ∀ s : State, s.status = .running →
    ((∃ k t, core.run k s = .next t ∧ State.status t = .halted) ↔
      ∃ k u, core.run k s = .next u ∧ State.status u = .running ∧
        State.programLength u ≤ (State.pc u).toNat) ∧
    ((∃ k f, core.run k s = .fault f) ↔ ∃ k u f, core.run k s = .next u ∧ step u = .fault f)

/-- With skip set (spec/41_dispatch.md, section 1), the fetched instruction, valid or not, is consumed
with its extra words, SP moves by a PUSH in b or a POP in a, skip is cleared, and nothing else changes.
For a skipped unknown special word, its words and SP rest on decision D7 (log 17). -/
def Obligations.SkippedInstructionIsConsumedWithoutEffect : Prop :=
  ∀ s : State, s.fetches → s.skip = true → s.decoded.dst.writable = true →
    step s = .next (((s.setPc (s.pc + BitVec.ofNat 16 s.decoded.length)).setSp
      (s.sp - s.decoded.dst.pushed + s.decoded.src.popped)).setSkip false)

/-- spec/41_dispatch.md, section 3: with no write to PC, the next step starts after the instruction's
words; a skipped or reserved-and-skipped one too. For a skipped unknown special word the length is that
of decision D7 (log 17). -/
def Obligations.PcMovesPastTheWholeInstruction : Prop :=
  ∀ s t : State, s.fetches → step s = .next t →
    (s.skip = true ∨ (s.decoded.dst ≠ .place .pc ∧ ∀ a, s.decoded ≠ .instr (.jsr a)) ∨
      ∃ b a, s.decoded = .instr (.ife b a) ∨ s.decoded = .instr (.ifn b a)) →
    t.pc = s.pc + BitVec.ofNat 16 s.decoded.length

/-- spec/44_conditional.md, the skip flag's life: a fetching step leaves skip set only when it ran, not
skipped, an IFE with D ≠ S or an IFN with D = S. Both words are read after resolution (log 18). -/
def Obligations.OnlyAFailedConditionalSetsSkip : Prop :=
  ∀ s t : State, s.fetches → step s = .next t → t.skip = true →
    s.skip = false ∧ ∃ b a ld ra u, resolveBoth b a (s.setPc (s.pc + 1)) = some (ld, ra, u) ∧
      ((s.decoded = .instr (.ife b a) ∧ u.readLoc ld ≠ u.val ra) ∨
        (s.decoded = .instr (.ifn b a) ∧ u.readLoc ld = u.val ra))

/-- The word an instruction stores is what a fetch at its address then reads; at the next
instruction's address, the next step fetches it (spec/20_memory.md, section 7). For every unskipped
instruction that writes D, with b resolved to a memory word; the values are those of the results below
(logs 12 and 18). -/
def Obligations.StoredWordIsFetchedNext : Prop :=
  ∀ (s u : State) (i : Instr) (n : Word) (ra : Ref), s.Inv → s.fetches → s.skip = false →
    s.decoded = .instr i → i.writesD = true →
    resolveBoth i.dst i.src (s.setPc (s.pc + 1)) = some (.mem n, ra, u) →
    (i.dividesOrFaults = none ∨ u.val ra ≠ 0) →
    ∃ t, step s = .next t ∧
      (t.setPc n).nextWord.1 = i.result (u.readLoc (.mem n)) (u.val ra) ∧
      (n = s.pc + BitVec.ofNat 16 s.decoded.length →
        t.pc = n ∧ t.nextWord.1 = i.result (u.readLoc (.mem n)) (u.val ra))

/-- The word the host places is the one the next step runs (the model's own operation, log 21). -/
def Obligations.PlacedWordIsRunNext : Prop :=
  ∀ (s : State) (nbits w : Nat) (i : Instr), s.mem.wf → decodeTableWord nbits w = some i →
    step (s.withFetchWord nbits w) =
      exec i ((s.withFetchWord nbits w).setPc (s.pc + 1))

/-! ### Faults -/

/-- LiteralDestination is raised for every word whose b field is 0x1F, skipped or not, and for no other
(spec/60_exceptions.md, section 1; decision D6, log 15). -/
def Obligations.LiteralDestinationFaultsExactlyAtCode1F : Prop :=
  ∀ s : State, s.fetches →
    ((∃ final, step s = .fault (.literalDestination final)) ↔
      destinationField (s.mem.read s.pc) = 0x1F#5)

/-- UnknownOpcode is raised exactly for an unskipped reserved opcode whose b code is not 0x1F
(spec/60_exceptions.md, sections 1 and 2). The opcode numbers are decision D2 (log 8); that 0x1F faults
earlier, in resolution, is decision D6 (log 15). -/
def Obligations.UnknownOpcodeFaultsExactlyAtReservedOpcodes : Prop :=
  ∀ (s : State) (o : BitVec 5), s.fetches →
    ((∃ final, step s = .fault (.unknownOpcode o final)) ↔
      s.skip = false ∧ destinationField (s.mem.read s.pc) ≠ 0x1F#5 ∧
        opcodeField (s.mem.read s.pc) = o ∧
        ((0x0D ≤ o.toNat ∧ o.toNat ≤ 0x11) ∨ 0x14 ≤ o.toNat))

/-- UnknownSpecial is raised exactly for opcode 0x00 with a special code other than 0x01 and 0x1F,
unskipped (spec/60_exceptions.md, sections 1 and 2). The code 0x1F faults earlier, in resolution, by
decisions D6 and D7 (logs 15 and 17). -/
def Obligations.UnknownSpecialFaultsExactlyAtOtherSpecialCodes : Prop :=
  ∀ (s : State) (c : BitVec 5), s.fetches →
    ((∃ final, step s = .fault (.unknownSpecial c final)) ↔
      s.skip = false ∧ opcodeField (s.mem.read s.pc) = 0x00#5 ∧
        destinationField (s.mem.read s.pc) = c ∧ c ≠ 0x01#5 ∧ c ≠ 0x1F#5)

/-- MOD and MDI with S = 0 fault in the execute phase, with nothing written (spec/42_arith.md, section
4; decision D12, log 13). The final state, PC and SP as resolution left them and the recorded address
and word, is decisions D15 and D17 (log 6). Both words are read after resolution (log 18). -/
def Obligations.RemainderByZeroFaults : Prop :=
  ∀ (b : Dst) (a : Src) (s : State) (ld : Loc) (ra : Ref) (t : State), s.skip = false →
    resolveBoth b a s = some (ld, ra, t) → t.val ra = 0 →
    exec (.mod b a) s = .fault (.divideByZero .mod (t.setStatus
      (.faulted (.divideByZero .mod) (s.pc - 1) (Instr.mod b a).word))) ∧
    exec (.mdi b a) s = .fault (.divideByZero .mdi (t.setStatus
      (.faulted (.divideByZero .mdi) (s.pc - 1) (Instr.mdi b a).word)))

/-- spec/60_exceptions.md R226: nothing else faults. A running step goes on unless its b field is a
literal, it is an unskipped reserved word, or it is an unskipped MOD or MDI with S = 0; and no running
step is refused. Which words those are, and that MOD and MDI fault, are logs 8, 13, 15 and 17. -/
def Obligations.NothingElseFaults : Prop :=
  ∀ s : State, s.status = .running →
    ((s.pc.toNat < s.programLength → s.decoded.dst.writable = true ∧
      (s.skip = true ∨ ∃ i, s.decoded = .instr i ∧
        (i.dividesOrFaults = none ∨ ∀ ld ra u,
          resolveBoth i.dst i.src (s.setPc (s.pc + 1)) = some (ld, ra, u) → u.val ra ≠ 0))) →
      ∃ t, step s = .next t) ∧
    ∀ r, step s ≠ .refused r

/-- A fault applies none of the instruction's semantics (spec/41_dispatch.md, section 2; decisions D15,
D17 and D21, logs 6 and 16; an unknown special word's resolution is decision D7, log 17): registers, EX,
skip, memory and N are as before, PC and SP are as resolution left them, and the status records the
reason, the word's address and the word. -/
def Obligations.FaultAppliesNoSemantics : Prop :=
  ∀ (s : State) (f : Fault), step s = .fault f →
    f.final.x = s.x ∧ f.final.ex = s.ex ∧ f.final.skip = s.skip ∧ f.final.mem = s.mem ∧
    f.final.programLength = s.programLength ∧
    f.final.status = .faulted f.reason s.pc (s.mem.read s.pc) ∧
    (f.reason = .literalDestination →
      f.final.sp = s.sp ∧ (f.final.pc = s.pc + 1 ∨ f.final.pc = s.pc + 2)) ∧
    (f.reason ≠ .literalDestination →
      f.final.sp = s.sp - s.decoded.dst.pushed + s.decoded.src.popped ∧
      f.final.pc = s.pc + BitVec.ofNat 16 s.decoded.length)

/-- A literal destination stops every instruction, IFE and IFN among them, in any state
(spec/40_operands.md, section 2; decision D6, log 15). -/
def Obligations.LiteralDestinationStopsEveryInstruction : Prop :=
  ∀ (i : Instr) (n : Word) (s : State), i.dst = .literal n →
    ∃ final, exec i s = .fault (.literalDestination final)

/-! ### Operands -/

/-- Every source form gives the value its rule says, and every destination form is written where its
rule says: SET with one operand a register, or a literal, for each form of the other
(spec/40_operands.md R92 to R105). -/
def Obligations.EveryOperandFormResolvesAsItsRuleSays : Prop :=
  ∀ (s : State) (r q : Reg) (n v : Word) (k : BitVec 5), s.skip = false →
    (exec (.set (.place (.reg r)) (.place (.reg q))) s = .next (s.setReg r (s.reg q)) ∧
     exec (.set (.place (.reg r)) (.place (.ind q))) s
       = .next (s.setReg r (s.mem.read (s.reg q))) ∧
     exec (.set (.place (.reg r)) (.place (.indDisp q n))) s
       = .next ((s.setPc (s.pc + 1)).setReg r (s.mem.read (s.reg q + n))) ∧
     exec (.set (.place (.reg r)) .pop) s
       = .next ((s.setSp (s.sp + 1)).setReg r (s.mem.read s.sp)) ∧
     exec (.set (.place (.reg r)) (.place .peek)) s = .next (s.setReg r (s.mem.read s.sp)) ∧
     exec (.set (.place (.reg r)) (.place (.pick n))) s
       = .next ((s.setPc (s.pc + 1)).setReg r (s.mem.read (s.sp + n))) ∧
     exec (.set (.place (.reg r)) (.place .sp)) s = .next (s.setReg r s.sp) ∧
     exec (.set (.place (.reg r)) (.place .pc)) s = .next (s.setReg r s.pc) ∧
     exec (.set (.place (.reg r)) (.place .ex)) s = .next (s.setReg r s.ex) ∧
     exec (.set (.place (.reg r)) (.place (.abs n))) s
       = .next ((s.setPc (s.pc + 1)).setReg r (s.mem.read n)) ∧
     exec (.set (.place (.reg r)) (.literal n)) s = .next ((s.setPc (s.pc + 1)).setReg r n) ∧
     exec (.set (.place (.reg r)) (.small k)) s = .next (s.setReg r (k.setWidth 16 - 1))) ∧
    (exec (.set (.place (.reg q)) (.literal v)) s = .next ((s.setPc (s.pc + 1)).setReg q v) ∧
     exec (.set (.place (.ind q)) (.literal v)) s
       = .next ((s.setPc (s.pc + 1)).setMem (s.mem.write (s.reg q) v)) ∧
     exec (.set (.place (.indDisp q n)) (.literal v)) s
       = .next ((s.setPc (s.pc + 2)).setMem (s.mem.write (s.reg q + n) v)) ∧
     exec (.set .push (.literal v)) s
       = .next (((s.setSp (s.sp - 1)).setPc (s.pc + 1)).setMem (s.mem.write (s.sp - 1) v)) ∧
     exec (.set (.place .peek) (.literal v)) s
       = .next ((s.setPc (s.pc + 1)).setMem (s.mem.write s.sp v)) ∧
     exec (.set (.place (.pick n)) (.literal v)) s
       = .next ((s.setPc (s.pc + 2)).setMem (s.mem.write (s.sp + n) v)) ∧
     exec (.set (.place .sp) (.literal v)) s = .next ((s.setPc (s.pc + 1)).setSp v) ∧
     exec (.set (.place .pc) (.literal v)) s = .next (s.setPc v) ∧
     exec (.set (.place .ex) (.literal v)) s = .next ((s.setPc (s.pc + 1)).setEx v) ∧
     exec (.set (.place (.abs n)) (.literal v)) s
       = .next ((s.setPc (s.pc + 2)).setMem (s.mem.write n v)))

/-- b is resolved before a, and locations are read after both (spec/40_operands.md, sections 1 and 3;
decision D8, log 18): SET PUSH, SP pushes the new SP, and PEEK and PICK read from it. -/
def Obligations.PushIsSeenByTheSourceOperand : Prop :=
  ∀ (s : State) (n : Word), s.skip = false →
    exec (.set .push (.place .sp)) s
      = .next ((s.setSp (s.sp - 1)).setMem (s.mem.write (s.sp - 1) (s.sp - 1))) ∧
    exec (.set .push (.place (.pick n))) s
      = .next (((s.setSp (s.sp - 1)).setPc (s.pc + 1)).setMem
          (s.mem.write (s.sp - 1) (s.mem.read (s.sp - 1 + n)))) ∧
    (s.mem.wf → exec (.set .push (.place .peek)) s = .next (s.setSp (s.sp - 1))) ∧
    (s.mem.wf → exec (.set .push .pop) s = .next s)

/-! ### Results -/

/-- SET writes the source's word to the destination, whatever location it is (spec/42_arith.md, section
1). The source is read after resolution (log 18). -/
def Obligations.SetWritesTheSource : Prop :=
  ∀ (b : Dst) (a : Src) (s : State) (ld : Loc) (ra : Ref) (t : State), s.skip = false →
    resolveBoth b a s = some (ld, ra, t) → exec (.set b a) s = .next (t.writeLoc ld (t.val ra))

/-- ADD: the sum modulo 65536, then the carry in EX, even when EX is the destination (spec/42_arith.md,
section 2; decision D9, log 9). Both words are read after resolution (log 18). -/
def Obligations.AddGivesSumAndCarry : Prop :=
  ∀ (b : Dst) (a : Src) (s : State) (ld : Loc) (ra : Ref) (t : State), s.skip = false →
    resolveBoth b a s = some (ld, ra, t) →
    exec (.add b a) s = .next ((t.writeLoc ld (t.readLoc ld + t.val ra)).setEx
      (if 65536 ≤ (t.readLoc ld).toNat + (t.val ra).toNat then 0x0001 else 0x0000))

/-- SUB with b other than PC: the difference modulo 65536, then 0xFFFF in EX on a borrow, else 0
(spec/42_arith.md, section 2; decision D9, log 9). Both words are read after resolution (log 18). -/
def Obligations.SubGivesDifferenceAndBorrow : Prop :=
  ∀ (b : Dst) (a : Src) (s : State) (ld : Loc) (ra : Ref) (t : State), s.skip = false →
    b ≠ .place .pc → resolveBoth b a s = some (ld, ra, t) →
    exec (.sub b a) s = .next ((t.writeLoc ld (t.readLoc ld - t.val ra)).setEx
      (if (t.readLoc ld).toNat < (t.val ra).toNat then 0xFFFF else 0x0000))

/-- SUB PC takes off one more, in the result and in EX (spec/42_arith.md, section 2; decision D14, log
14). Both words are read after resolution (log 18). -/
def Obligations.SubFromPcTakesOneMore : Prop :=
  ∀ (a : Src) (s : State) (ld : Loc) (ra : Ref) (t : State), s.skip = false →
    resolveBoth (.place .pc) a s = some (ld, ra, t) →
    exec (.sub (.place .pc) a) s = .next ((t.setPc (t.pc - t.val ra - 1)).setEx
      (if t.pc.toNat < (t.val ra).toNat + 1 then 0xFFFF else 0x0000))

/-- MUL: the unsigned product's low half, then its high half in EX (spec/42_arith.md, section 3;
decision D9, log 9). Both words are read after resolution (log 18). -/
def Obligations.MulGivesUnsignedProduct : Prop :=
  ∀ (b : Dst) (a : Src) (s : State) (ld : Loc) (ra : Ref) (t : State), s.skip = false →
    resolveBoth b a s = some (ld, ra, t) →
    exec (.mul b a) s = .next ((t.writeLoc ld (t.readLoc ld * t.val ra)).setEx
      (((t.readLoc ld).setWidth 32 * (t.val ra).setWidth 32).extractLsb' 16 16))

/-- MLI: the signed product's low half, then its high half in EX (spec/42_arith.md, section 3; decision
D9, log 9). Both words are read after resolution (log 18). -/
def Obligations.MliGivesSignedProduct : Prop :=
  ∀ (b : Dst) (a : Src) (s : State) (ld : Loc) (ra : Ref) (t : State), s.skip = false →
    resolveBoth b a s = some (ld, ra, t) →
    exec (.mli b a) s = .next ((t.writeLoc ld (t.readLoc ld * t.val ra)).setEx
      (((t.readLoc ld).signExtend 32 * (t.val ra).signExtend 32).extractLsb' 16 16))

/-- DIV: the unsigned quotient, then DIV_EX(D, S) in EX; 0 and EX = 0 for S = 0 (spec/42_arith.md,
section 4). DIV_EX is a free value (decision D10, log 10); with EX as destination it, not the quotient,
stays (decision D9, log 9). Both words are read after resolution (log 18). -/
def Obligations.DivGivesUnsignedQuotient : Prop :=
  ∀ (b : Dst) (a : Src) (s : State) (ld : Loc) (ra : Ref) (t : State), s.skip = false →
    resolveBoth b a s = some (ld, ra, t) →
    exec (.div b a) s = .next ((t.writeLoc ld
        (if t.val ra = 0 then 0 else (t.readLoc ld).udiv (t.val ra))).setEx
      (if t.val ra = 0 then 0 else Config.divEx (t.readLoc ld) (t.val ra)))

/-- DVI: the signed quotient, toward zero (decision D11, log 12), then DVI_EX(D, S) in EX; 0 and EX = 0
for S = 0 (spec/42_arith.md, section 4). DVI_EX is a free value (log 11); with EX as destination it, not
the quotient, stays (decision D9, log 9). Both words are read after resolution (log 18). -/
def Obligations.DviGivesSignedQuotient : Prop :=
  ∀ (b : Dst) (a : Src) (s : State) (ld : Loc) (ra : Ref) (t : State), s.skip = false →
    resolveBoth b a s = some (ld, ra, t) →
    exec (.dvi b a) s = .next ((t.writeLoc ld
        (if t.val ra = 0 then 0 else (t.readLoc ld).sdiv (t.val ra))).setEx
      (if t.val ra = 0 then 0 else Config.dviEx (t.readLoc ld) (t.val ra)))

/-- MOD with S ≠ 0: the unsigned remainder; EX is not written (spec/42_arith.md, section 4). Both words
are read after resolution (log 18). -/
def Obligations.ModGivesUnsignedRemainder : Prop :=
  ∀ (b : Dst) (a : Src) (s : State) (ld : Loc) (ra : Ref) (t : State), s.skip = false →
    resolveBoth b a s = some (ld, ra, t) → t.val ra ≠ 0 →
    exec (.mod b a) s = .next (t.writeLoc ld ((t.readLoc ld).umod (t.val ra)))

/-- MDI with S ≠ 0: the remainder with the sign of D (decision D13, log 12); EX is not written
(spec/42_arith.md, section 4). Both words are read after resolution (log 18). -/
def Obligations.MdiGivesSignedRemainder : Prop :=
  ∀ (b : Dst) (a : Src) (s : State) (ld : Loc) (ra : Ref) (t : State), s.skip = false →
    resolveBoth b a s = some (ld, ra, t) → t.val ra ≠ 0 →
    exec (.mdi b a) s = .next (t.writeLoc ld ((t.readLoc ld).srem (t.val ra)))

/-- AND, BOR and XOR write the bitwise result and no EX (spec/43_bitwise.md). Both words are read after
resolution (log 18). -/
def Obligations.BitwiseInstructionsGiveTheirResult : Prop :=
  ∀ (b : Dst) (a : Src) (s : State) (ld : Loc) (ra : Ref) (t : State), s.skip = false →
    resolveBoth b a s = some (ld, ra, t) →
    exec (.and b a) s = .next (t.writeLoc ld (t.readLoc ld &&& t.val ra)) ∧
    exec (.bor b a) s = .next (t.writeLoc ld (t.readLoc ld ||| t.val ra)) ∧
    exec (.xor b a) s = .next (t.writeLoc ld (t.readLoc ld ^^^ t.val ra))

/-- IFE requests a skip when D ≠ S and IFN when D = S; neither writes anything else
(spec/44_conditional.md). Both words are read after resolution (log 18). -/
def Obligations.ConditionalsRequestASkip : Prop :=
  ∀ (b : Dst) (a : Src) (s : State) (ld : Loc) (ra : Ref) (t : State), s.skip = false →
    resolveBoth b a s = some (ld, ra, t) →
    exec (.ife b a) s = .next (t.setSkip (decide (t.readLoc ld ≠ t.val ra))) ∧
    exec (.ifn b a) s = .next (t.setSkip (decide (t.readLoc ld = t.val ra)))

/-- JSR sets PC to the source's value and changes nothing else but what its operand's own resolution
does (spec/45_special.md). The source is read after resolution (log 18). -/
def Obligations.JsrJumpsWithoutPushing : Prop :=
  ∀ (a : Src) (s : State), s.skip = false →
    exec (.jsr a) s
      = .next ((resolveSrc a s).2.setPc ((resolveSrc a s).2.val (resolveSrc a s).1)) ∧
    (resolveSrc a s).2.sp = s.sp + a.popped ∧ (resolveSrc a s).2.mem = s.mem ∧
    (resolveSrc a s).2.ex = s.ex ∧ (resolveSrc a s).2.x = s.x

/-- The call idiom SET PUSH, v and the return idiom SET PC, POP (spec/30_encoding.md, section 6): the
return jumps to v and leaves SP as it was before the call. -/
def Obligations.ReturnUndoesTheCallPush : Prop :=
  ∀ (s t u : State) (v : Word), s.mem.wf → s.skip = false →
    exec (.set .push (.literal v)) s = .next t → u.mem = t.mem → u.sp = t.sp → u.skip = false →
    exec (.set (.place .pc) .pop) u = .next ((u.setSp s.sp).setPc v)

/-! ### Frames -/

/-- What SET, MOD, MDI, AND, BOR and XOR leave unchanged: every register, EX and memory word but the
destination; SP but for the destination, PUSH and POP; the status and N. Skip is clear after. -/
def Obligations.FrameOfTheWritersThatKeepEx : Prop :=
  ∀ (i : Instr) (s t u : State) (ld : Loc) (ra : Ref), i.writesD = true → i.writesEx = false →
    s.mem.wf → resolveBoth i.dst i.src s = some (ld, ra, u) → exec i s = .next t →
    (∀ r, ld ≠ .reg r → t.reg r = s.reg r) ∧
    (ld ≠ .sp → t.sp = s.sp - i.dst.pushed + i.src.popped) ∧
    (ld ≠ .ex → t.ex = s.ex) ∧
    (∀ c, ld ≠ .mem c → t.mem.read c = s.mem.read c) ∧
    t.skip = false ∧ t.status = s.status ∧ t.programLength = s.programLength

/-- What ADD, SUB, MUL, MLI, DIV and DVI leave unchanged: every register and memory word but the
destination; SP but for the destination, PUSH and POP; the status and N. They write EX. -/
def Obligations.FrameOfTheWritersOfEx : Prop :=
  ∀ (i : Instr) (s t u : State) (ld : Loc) (ra : Ref), i.writesD = true → i.writesEx = true →
    s.mem.wf → resolveBoth i.dst i.src s = some (ld, ra, u) → exec i s = .next t →
    (∀ r, ld ≠ .reg r → t.reg r = s.reg r) ∧
    (ld ≠ .sp → t.sp = s.sp - i.dst.pushed + i.src.popped) ∧
    (s.skip = true → t.ex = s.ex) ∧
    (∀ c, ld ≠ .mem c → t.mem.read c = s.mem.read c) ∧
    t.skip = false ∧ t.status = s.status ∧ t.programLength = s.programLength

/-- What IFE, IFN and JSR leave unchanged: every general register, EX, all of memory, SP but for PUSH
and POP, the status and N (spec/10_state.md, section 2: they never write a general register). JSR leaves
skip clear. -/
def Obligations.FrameOfTheInstructionsWithoutDestination : Prop :=
  ∀ (i : Instr) (s t : State), i.writesD = false → exec i s = .next t →
    t.x = s.x ∧ t.ex = s.ex ∧ t.mem = s.mem ∧
    t.sp = s.sp - i.dst.pushed + i.src.popped ∧
    t.status = s.status ∧ t.programLength = s.programLength ∧
    ∀ a, i = .jsr a → t.skip = false

/-! ### Length -/

/-- A word's length, instruction or not, is told by its operand codes alone: one word, and one more for
each code of 0x10–0x17, 0x1A, 0x1E and 0x1F (spec/30_encoding.md, sections 2 and 3). The field places
are decision D1 (log 7); that the special code counts as a b code is decision D7 (log 17). -/
def Obligations.LengthIsToldByTheOperandCodes : Prop :=
  ∀ w e₁ e₂ : Word, (decode w e₁ e₂).length
    = 1 + extraWordsOfCode (destinationField w).toNat + extraWordsOfCode (sourceField w).toNat
end

