-- ==== Sys2Proof/Laws/Memory.lean ====
section
/-! SUPPORT. The laws of memory: reading after writing, and the canonical form, which every operation
keeps and in which equal memories are equal lists (log 1). -/

namespace Sys2Proof.Machine

namespace Memory

/-! ### Bytes -/

@[simp] theorem byte_nil (k : Nat) : byte [] k = unlisted := rfl

theorem byte_cons (c : Host.Cell) (m : Memory) (k : Nat) :
    byte (c :: m) k = if k = c.1 then c.2 else byte m k := rfl

/-- A cell below every listed one is unlisted. -/
theorem byte_eq_unlisted_of_lt {m : Memory} {k : Nat} (h : ∀ c ∈ m, k < c.1) : byte m k = unlisted := by
  induction m with
  | nil => rfl
  | cons c m ih =>
    have hc : k < c.1 := h c (by simp)
    rw [byte_cons, if_neg (by omega)]
    exact ih fun d hd => h d (by simp [hd])

/-- Reading a byte after writing one, in any memory whose cells rise. -/
theorem byte_setByte {m : Memory} (hm : m.Pairwise (fun c d => c.1 < d.1)) (k j : Nat) (v : Byte) :
    byte (setByte m k v) j = if j = k then v else byte m j := by
  induction m with
  | nil =>
    by_cases hv : v = unlisted <;> by_cases hj : j = k <;> simp [setByte, byte_cons, hv, hj]
  | cons c m ih =>
    obtain ⟨hc, hm⟩ := List.pairwise_cons.1 hm
    have above : k < c.1 → byte m k = unlisted := fun h =>
      byte_eq_unlisted_of_lt fun d hd => Nat.lt_trans h (hc d hd)
    simp only [setByte]
    split
    · rename_i hlt
      have hne : k ≠ c.1 := by omega
      by_cases hj : j = k
      · subst hj
        split <;> simp_all [byte_cons]
      · split <;> simp [byte_cons, hj]
    · split
      · rename_i heq
        subst heq
        have := byte_eq_unlisted_of_lt hc
        by_cases hj : j = c.1
        · subst hj
          split <;> simp_all [byte_cons]
        · split <;> simp [byte_cons, hj]
      · rename_i hne
        rw [byte_cons, ih hm, byte_cons]
        by_cases hj : j = c.1 <;> by_cases hjk : j = k <;> simp_all

/-- Writing a byte adds no cell but its own. -/
theorem mem_setByte {m : Memory} {k : Nat} {v : Byte} {d : Host.Cell} (h : d ∈ setByte m k v) :
    d ∈ m ∨ d = (k, v) ∧ v ≠ unlisted := by
  induction m with
  | nil =>
    simp only [setByte] at h
    split at h <;> simp_all
  | cons c m ih =>
    simp only [setByte] at h
    split at h
    · split at h
      · exact .inl h
      · rename_i hv
        rcases List.mem_cons.1 h with rfl | h
        · exact .inr ⟨rfl, hv⟩
        · exact .inl h
    · split at h
      · split at h
        · exact .inl (List.mem_cons_of_mem c h)
        · rename_i hv
          rcases List.mem_cons.1 h with rfl | h
          · exact .inr ⟨rfl, hv⟩
          · exact .inl (List.mem_cons_of_mem c h)
      · rcases List.mem_cons.1 h with rfl | h
        · simp
        · rcases ih h with h | h <;> simp [h]

/-- Writing a byte of the space keeps the canonical form. -/
theorem setByte_wf {m : Memory} (hm : m.wf) {k : Nat} (hk : k < cells) (v : Byte) :
    (setByte m k v).wf := by
  refine ⟨?_, fun d hd => ?_⟩
  · obtain ⟨hp, -⟩ := hm
    induction m with
    | nil =>
      simp only [setByte]
      split <;> simp
    | cons c m ih =>
      obtain ⟨hc, hm⟩ := List.pairwise_cons.1 hp
      simp only [setByte]
      split
      · rename_i hlt
        split
        · exact hp
        · refine List.pairwise_cons.2 ⟨fun d hd => ?_, hp⟩
          rcases List.mem_cons.1 hd with rfl | hd
          · exact hlt
          · exact Nat.lt_trans hlt (hc d hd)
      · split
        · rename_i heq
          subst heq
          split
          · exact hm
          · exact List.pairwise_cons.2 ⟨hc, hm⟩
        · refine List.pairwise_cons.2 ⟨fun d hd => ?_, ih hm⟩
          rcases mem_setByte hd with hd | ⟨rfl, -⟩
          · exact hc d hd
          · show c.1 < k
            omega
  · rcases mem_setByte hd with hd | ⟨rfl, hv⟩
    · exact hm.2 d hd
    · exact ⟨hv, hk⟩

/-- Canonical memories that agree on every byte are the same list. -/
theorem eq_of_byte {m n : Memory} (hm : m.wf) (hn : n.wf) (h : ∀ k, byte m k = byte n k) : m = n := by
  induction m generalizing n with
  | nil =>
    cases n with
    | nil => rfl
    | cons d n =>
      have := h d.1
      rw [byte_nil, byte_cons, if_pos rfl] at this
      exact absurd this.symm (hn.2 d (by simp)).1
  | cons c m ih =>
    cases n with
    | nil =>
      have := h c.1
      rw [byte_nil, byte_cons, if_pos rfl] at this
      exact absurd this (hm.2 c (by simp)).1
    | cons d n =>
      obtain ⟨hc, hmp⟩ := List.pairwise_cons.1 hm.1
      obtain ⟨hd, hnp⟩ := List.pairwise_cons.1 hn.1
      have hkey : c.1 = d.1 := by
        rcases Nat.lt_trichotomy c.1 d.1 with hlt | heq | hgt
        · have := h c.1
          rw [byte_cons, if_pos rfl, byte_eq_unlisted_of_lt] at this
          · exact absurd this (hm.2 c (by simp)).1
          · intro e he
            rcases List.mem_cons.1 he with rfl | he
            · exact hlt
            · exact Nat.lt_trans hlt (hd e he)
        · exact heq
        · have := h d.1
          rw [byte_cons (c := d), if_pos rfl, byte_eq_unlisted_of_lt] at this
          · exact absurd this.symm (hn.2 d (by simp)).1
          · intro e he
            rcases List.mem_cons.1 he with rfl | he
            · exact hgt
            · exact Nat.lt_trans hgt (hc e he)
      have hval : c.2 = d.2 := by
        have := h c.1
        rwa [byte_cons, if_pos rfl, byte_cons, if_pos hkey] at this
      have htail : m = n := by
        refine ih ⟨hmp, fun e he => hm.2 e (by simp [he])⟩ ⟨hnp, fun e he => hn.2 e (by simp [he])⟩ ?_
        intro k
        by_cases hk : k = c.1
        · rw [hk, byte_eq_unlisted_of_lt hc, hkey, byte_eq_unlisted_of_lt hd]
        · have := h k
          rwa [byte_cons, if_neg hk, byte_cons, if_neg (hkey ▸ hk)] at this
      rw [htail, Prod.ext hkey hval]

/-! ### Words (spec/20_memory.md R50) -/

@[simp] theorem read_nil (a : Word) : read [] a = 0 := by
  simp [read, unlisted]

@[simp] theorem nil_wf : wf [] := by simp [wf]

theorem lowCell_lt (a : Word) : 2 * a.toNat < cells := by
  have := a.isLt
  unfold cells
  omega

theorem highCell_lt (a : Word) : 2 * a.toNat + 1 < cells := by
  have := a.isLt
  unfold cells
  omega

/-- Writing a word keeps the canonical form. -/
theorem write_wf {m : Memory} (hm : m.wf) (a v : Word) : (m.write a v).wf :=
  setByte_wf (setByte_wf hm (lowCell_lt a) _) (highCell_lt a) _

/-- Writing words one after another keeps the canonical form. -/
theorem writeWords_wf {m : Memory} (hm : m.wf) (a : Word) (ws : List Word) :
    (m.writeWords a ws).wf := by
  induction ws generalizing m a with
  | nil => exact hm
  | cons v vs ih => exact ih (write_wf hm a v) (a + 1)

theorem high_append_low (v : Word) : v.extractLsb' 8 8 ++ v.extractLsb' 0 8 = v := by
  apply BitVec.eq_of_getLsbD_eq
  intro i hi
  simp only [BitVec.getLsbD_append, BitVec.getLsbD_extractLsb']
  split
  · simp_all
  · have : i - 8 < 8 := by omega
    have : 8 + (i - 8) = i := by omega
    simp_all

theorem high_of_append (x y : Byte) : (x ++ y : BitVec 16).extractLsb' 8 8 = x := by
  apply BitVec.eq_of_getLsbD_eq
  intro i hi
  simp only [BitVec.getLsbD_append, BitVec.getLsbD_extractLsb']
  simp [hi]

theorem low_of_append (x y : Byte) : (x ++ y : BitVec 16).extractLsb' 0 8 = y := by
  apply BitVec.eq_of_getLsbD_eq
  intro i hi
  simp only [BitVec.getLsbD_append, BitVec.getLsbD_extractLsb']
  simp [hi]

/-- A read after a write gives the value written at its own address and the old word elsewhere. -/
theorem read_write {m : Memory} (hm : m.wf) (a v b : Word) :
    (m.write a v).read b = if b = a then v else m.read b := by
  have h1 := (setByte_wf hm (lowCell_lt a) (v.extractLsb' 0 8)).1
  simp only [read, write, byte_setByte h1, byte_setByte hm.1]
  by_cases hb : b = a
  · subst hb
    simp [high_append_low]
  · have hne : b.toNat ≠ a.toNat := fun h => hb (BitVec.eq_of_toNat_eq h)
    have e1 : 2 * b.toNat ≠ 2 * a.toNat + 1 := by omega
    have e2 : 2 * b.toNat + 1 ≠ 2 * a.toNat := by omega
    simp [hb, hne, e1, e2]

/-- Reading after writing words one after another, at most as many as the space holds: the `k`-th address
from `a` reads as the `k`-th word, and the addresses after the last as before. -/
theorem read_writeWords {m : Memory} (hm : m.wf) (a : Word) {ws : List Word}
    (hl : ws.length ≤ 65536) {k : Nat} (hk : k < 65536) :
    (m.writeWords a ws).read (a + BitVec.ofNat 16 k)
      = if h : k < ws.length then ws[k] else m.read (a + BitVec.ofNat 16 k) := by
  induction ws generalizing m a k with
  | nil => simp [Memory.writeWords]
  | cons v vs ih =>
    simp only [List.length_cons] at hl
    simp only [Memory.writeWords]
    cases k with
    | zero =>
      have e : a + 1 + BitVec.ofNat 16 65535 = a + BitVec.ofNat 16 0 := by
        rw [BitVec.add_assoc]
        rfl
      rw [← e, ih (write_wf hm a v) (a + 1) (by omega) (by omega), dif_neg (by omega), e]
      simp [read_write hm]
    | succ k =>
      have e : a + BitVec.ofNat 16 (k + 1) = a + 1 + BitVec.ofNat 16 k := by
        rw [BitVec.add_assoc, Nat.add_comm, BitVec.ofNat_add]
        rfl
      have hne : a + BitVec.ofNat 16 (k + 1) ≠ a := by
        intro h
        have h := congrArg BitVec.toNat h
        have := a.isLt
        simp only [BitVec.toNat_add, BitVec.toNat_ofNat] at h
        omega
      rw [e, ih (write_wf hm a v) (a + 1) (by omega) (by omega), ← e]
      simp [read_write hm, hne]

/-- Canonical memories that agree on every word are the same list: the bytes add nothing to the word
space of spec/10_state.md R20 (`mem : Word → Word`). -/
theorem eq_of_read {m n : Memory} (hm : m.wf) (hn : n.wf) (h : ∀ a, m.read a = n.read a) : m = n := by
  have outside : ∀ {m : Memory}, m.wf → ∀ k, cells ≤ k → byte m k = unlisted := by
    intro m hm k hk
    induction m with
    | nil => rfl
    | cons c m ih =>
      have := (hm.2 c (by simp)).2
      rw [byte_cons, if_neg (by omega)]
      exact ih ⟨(List.pairwise_cons.1 hm.1).2, fun d hd => hm.2 d (by simp [hd])⟩
  refine eq_of_byte hm hn fun k => ?_
  by_cases hk : cells ≤ k
  · rw [outside hm k hk, outside hn k hk]
  · have hlt : k / 2 < 2 ^ 16 := by
      unfold cells at hk
      omega
    have ha := h (BitVec.ofNat 16 (k / 2))
    have hto : (BitVec.ofNat 16 (k / 2)).toNat = k / 2 := by
      rw [BitVec.toNat_ofNat, Nat.mod_eq_of_lt hlt]
    unfold read at ha
    rw [hto] at ha
    have hi := congrArg (fun w : BitVec 16 => w.extractLsb' 8 8) ha
    have lo := congrArg (fun w : BitVec 16 => w.extractLsb' 0 8) ha
    rcases Nat.mod_two_eq_zero_or_one k with hp | hp
    · have : 2 * (k / 2) = k := by omega
      simpa [low_of_append, this] using lo
    · have : 2 * (k / 2) + 1 = k := by omega
      simpa [high_of_append, this] using hi

end Memory

/-- The reset memory is canonical. -/
theorem reset_mem_wf : State.reset.mem.wf := Memory.nil_wf

end Sys2Proof.Machine
end

