-- ==== Sys2Proof/Laws/State.lean ====
section
/-! SUPPORT. One lemma per field of the state per update, and what reading a register or a location
gives after an update; later proofs cite these instead of unfolding a record. -/

namespace Sys2Proof.Machine

/-! ### `setX` -/

@[simp] theorem State.setX_x (s : State) (v : Vector Word 8) : (s.setX v).x = v := rfl
@[simp] theorem State.setX_sp (s : State) (v : Vector Word 8) : (s.setX v).sp = s.sp := rfl
@[simp] theorem State.setX_pc (s : State) (v : Vector Word 8) : (s.setX v).pc = s.pc := rfl
@[simp] theorem State.setX_ex (s : State) (v : Vector Word 8) : (s.setX v).ex = s.ex := rfl
@[simp] theorem State.setX_skip (s : State) (v : Vector Word 8) : (s.setX v).skip = s.skip := rfl
@[simp] theorem State.setX_mem (s : State) (v : Vector Word 8) : (s.setX v).mem = s.mem := rfl
@[simp] theorem State.setX_status (s : State) (v : Vector Word 8) : (s.setX v).status = s.status := rfl
@[simp] theorem State.setX_programLength (s : State) (v : Vector Word 8) : (s.setX v).programLength = s.programLength := rfl

/-! ### `setSp` -/

@[simp] theorem State.setSp_x (s : State) (v : Word) : (s.setSp v).x = s.x := rfl
@[simp] theorem State.setSp_sp (s : State) (v : Word) : (s.setSp v).sp = v := rfl
@[simp] theorem State.setSp_pc (s : State) (v : Word) : (s.setSp v).pc = s.pc := rfl
@[simp] theorem State.setSp_ex (s : State) (v : Word) : (s.setSp v).ex = s.ex := rfl
@[simp] theorem State.setSp_skip (s : State) (v : Word) : (s.setSp v).skip = s.skip := rfl
@[simp] theorem State.setSp_mem (s : State) (v : Word) : (s.setSp v).mem = s.mem := rfl
@[simp] theorem State.setSp_status (s : State) (v : Word) : (s.setSp v).status = s.status := rfl
@[simp] theorem State.setSp_programLength (s : State) (v : Word) : (s.setSp v).programLength = s.programLength := rfl

/-! ### `setPc` -/

@[simp] theorem State.setPc_x (s : State) (v : Word) : (s.setPc v).x = s.x := rfl
@[simp] theorem State.setPc_sp (s : State) (v : Word) : (s.setPc v).sp = s.sp := rfl
@[simp] theorem State.setPc_pc (s : State) (v : Word) : (s.setPc v).pc = v := rfl
@[simp] theorem State.setPc_ex (s : State) (v : Word) : (s.setPc v).ex = s.ex := rfl
@[simp] theorem State.setPc_skip (s : State) (v : Word) : (s.setPc v).skip = s.skip := rfl
@[simp] theorem State.setPc_mem (s : State) (v : Word) : (s.setPc v).mem = s.mem := rfl
@[simp] theorem State.setPc_status (s : State) (v : Word) : (s.setPc v).status = s.status := rfl
@[simp] theorem State.setPc_programLength (s : State) (v : Word) : (s.setPc v).programLength = s.programLength := rfl

/-! ### `setEx` -/

@[simp] theorem State.setEx_x (s : State) (v : Word) : (s.setEx v).x = s.x := rfl
@[simp] theorem State.setEx_sp (s : State) (v : Word) : (s.setEx v).sp = s.sp := rfl
@[simp] theorem State.setEx_pc (s : State) (v : Word) : (s.setEx v).pc = s.pc := rfl
@[simp] theorem State.setEx_ex (s : State) (v : Word) : (s.setEx v).ex = v := rfl
@[simp] theorem State.setEx_skip (s : State) (v : Word) : (s.setEx v).skip = s.skip := rfl
@[simp] theorem State.setEx_mem (s : State) (v : Word) : (s.setEx v).mem = s.mem := rfl
@[simp] theorem State.setEx_status (s : State) (v : Word) : (s.setEx v).status = s.status := rfl
@[simp] theorem State.setEx_programLength (s : State) (v : Word) : (s.setEx v).programLength = s.programLength := rfl

/-! ### `setSkip` -/

@[simp] theorem State.setSkip_x (s : State) (v : Bool) : (s.setSkip v).x = s.x := rfl
@[simp] theorem State.setSkip_sp (s : State) (v : Bool) : (s.setSkip v).sp = s.sp := rfl
@[simp] theorem State.setSkip_pc (s : State) (v : Bool) : (s.setSkip v).pc = s.pc := rfl
@[simp] theorem State.setSkip_ex (s : State) (v : Bool) : (s.setSkip v).ex = s.ex := rfl
@[simp] theorem State.setSkip_skip (s : State) (v : Bool) : (s.setSkip v).skip = v := rfl
@[simp] theorem State.setSkip_mem (s : State) (v : Bool) : (s.setSkip v).mem = s.mem := rfl
@[simp] theorem State.setSkip_status (s : State) (v : Bool) : (s.setSkip v).status = s.status := rfl
@[simp] theorem State.setSkip_programLength (s : State) (v : Bool) : (s.setSkip v).programLength = s.programLength := rfl

/-! ### `setMem` -/

@[simp] theorem State.setMem_x (s : State) (v : Memory) : (s.setMem v).x = s.x := rfl
@[simp] theorem State.setMem_sp (s : State) (v : Memory) : (s.setMem v).sp = s.sp := rfl
@[simp] theorem State.setMem_pc (s : State) (v : Memory) : (s.setMem v).pc = s.pc := rfl
@[simp] theorem State.setMem_ex (s : State) (v : Memory) : (s.setMem v).ex = s.ex := rfl
@[simp] theorem State.setMem_skip (s : State) (v : Memory) : (s.setMem v).skip = s.skip := rfl
@[simp] theorem State.setMem_mem (s : State) (v : Memory) : (s.setMem v).mem = v := rfl
@[simp] theorem State.setMem_status (s : State) (v : Memory) : (s.setMem v).status = s.status := rfl
@[simp] theorem State.setMem_programLength (s : State) (v : Memory) : (s.setMem v).programLength = s.programLength := rfl

/-! ### `setStatus` -/

@[simp] theorem State.setStatus_x (s : State) (v : RunStatus) : (s.setStatus v).x = s.x := rfl
@[simp] theorem State.setStatus_sp (s : State) (v : RunStatus) : (s.setStatus v).sp = s.sp := rfl
@[simp] theorem State.setStatus_pc (s : State) (v : RunStatus) : (s.setStatus v).pc = s.pc := rfl
@[simp] theorem State.setStatus_ex (s : State) (v : RunStatus) : (s.setStatus v).ex = s.ex := rfl
@[simp] theorem State.setStatus_skip (s : State) (v : RunStatus) : (s.setStatus v).skip = s.skip := rfl
@[simp] theorem State.setStatus_mem (s : State) (v : RunStatus) : (s.setStatus v).mem = s.mem := rfl
@[simp] theorem State.setStatus_status (s : State) (v : RunStatus) : (s.setStatus v).status = v := rfl
@[simp] theorem State.setStatus_programLength (s : State) (v : RunStatus) : (s.setStatus v).programLength = s.programLength := rfl

/-! ### `setProgramLength` -/

@[simp] theorem State.setProgramLength_x (s : State) (v : Nat) : (s.setProgramLength v).x = s.x := rfl
@[simp] theorem State.setProgramLength_sp (s : State) (v : Nat) : (s.setProgramLength v).sp = s.sp := rfl
@[simp] theorem State.setProgramLength_pc (s : State) (v : Nat) : (s.setProgramLength v).pc = s.pc := rfl
@[simp] theorem State.setProgramLength_ex (s : State) (v : Nat) : (s.setProgramLength v).ex = s.ex := rfl
@[simp] theorem State.setProgramLength_skip (s : State) (v : Nat) : (s.setProgramLength v).skip = s.skip := rfl
@[simp] theorem State.setProgramLength_mem (s : State) (v : Nat) : (s.setProgramLength v).mem = s.mem := rfl
@[simp] theorem State.setProgramLength_status (s : State) (v : Nat) : (s.setProgramLength v).status = s.status := rfl
@[simp] theorem State.setProgramLength_programLength (s : State) (v : Nat) : (s.setProgramLength v).programLength = v := rfl

/-! ### Registers -/

/-- A register reads as the last value written to it, and writing it leaves the others alone
(spec/10_state.md R21). -/
theorem State.reg_setReg (s : State) (i j : Reg) (v : Word) :
    (s.setReg i v).reg j = if i = j then v else s.reg j := by
  simp [State.reg, State.setReg, Vector.getElem_set, Fin.ext_iff]

@[simp] theorem State.reg_setReg_self (s : State) (i : Reg) (v : Word) : (s.setReg i v).reg i = v := by
  simp [State.reg_setReg]

@[simp] theorem State.setSp_reg (s : State) (v : Word) (i : Reg) : (s.setSp v).reg i = s.reg i := rfl
@[simp] theorem State.setPc_reg (s : State) (v : Word) (i : Reg) : (s.setPc v).reg i = s.reg i := rfl
@[simp] theorem State.setEx_reg (s : State) (v : Word) (i : Reg) : (s.setEx v).reg i = s.reg i := rfl
@[simp] theorem State.setSkip_reg (s : State) (v : Bool) (i : Reg) : (s.setSkip v).reg i = s.reg i := rfl
@[simp] theorem State.setMem_reg (s : State) (v : Memory) (i : Reg) : (s.setMem v).reg i = s.reg i := rfl
@[simp] theorem State.setStatus_reg (s : State) (v : RunStatus) (i : Reg) : (s.setStatus v).reg i = s.reg i := rfl
@[simp] theorem State.setProgramLength_reg (s : State) (v : Nat) (i : Reg) : (s.setProgramLength v).reg i = s.reg i := rfl

@[simp] theorem State.setReg_sp (s : State) (i : Reg) (v : Word) : (s.setReg i v).sp = s.sp := rfl
@[simp] theorem State.setReg_pc (s : State) (i : Reg) (v : Word) : (s.setReg i v).pc = s.pc := rfl
@[simp] theorem State.setReg_ex (s : State) (i : Reg) (v : Word) : (s.setReg i v).ex = s.ex := rfl
@[simp] theorem State.setReg_skip (s : State) (i : Reg) (v : Word) : (s.setReg i v).skip = s.skip := rfl
@[simp] theorem State.setReg_mem (s : State) (i : Reg) (v : Word) : (s.setReg i v).mem = s.mem := rfl
@[simp] theorem State.setReg_status (s : State) (i : Reg) (v : Word) : (s.setReg i v).status = s.status := rfl
@[simp] theorem State.setReg_programLength (s : State) (i : Reg) (v : Word) : (s.setReg i v).programLength = s.programLength := rfl

/-- `nextWord()` reads the word at PC. -/
@[simp] theorem State.nextWord_fst (s : State) : s.nextWord.1 = s.mem.read s.pc := rfl

/-- `nextWord()` moves PC on by one and changes nothing else. -/
@[simp] theorem State.nextWord_snd (s : State) : s.nextWord.2 = s.setPc (s.pc + 1) := rfl

/-- Consuming an extra word moves PC on by one and changes nothing else. -/
@[simp] theorem State.consumeExtra_eq (s : State) : s.consumeExtra = s.setPc (s.pc + 1) := rfl

end Sys2Proof.Machine
end

