-- ==== Sys2Proof/Laws/Operands.lean ====
section
/-! SUPPORT. What resolving operands can do, said once: it moves PC past the extra words and SP by a PUSH
or a POP (spec/40_operands.md R108), and fails exactly on a literal destination (R104). -/

namespace Sys2Proof.Machine

/-- Resolving a shared form moves PC past its extra word and changes nothing else. -/
theorem resolvePlace_state (p : Place) (s : State) :
    (resolvePlace p s).2 = s.setPc (s.pc + BitVec.ofNat 16 p.extra.length) := by
  cases p <;> simp [resolvePlace, Place.extra, State.setPc]

/-- Resolving b, when it resolves, moves PC past its extra word and SP down for a PUSH. -/
theorem resolveDst_state {b : Dst} {s t : State} {ld : Loc} (h : resolveDst b s = some (ld, t)) :
    t = (s.setPc (s.pc + BitVec.ofNat 16 b.extra.length)).setSp (s.sp - b.pushed) := by
  cases b with
  | place p =>
    obtain rfl : (resolvePlace p s).2 = t := congrArg Prod.snd (Option.some.inj h)
    simp [resolvePlace_state, Dst.extra, Dst.pushed, State.setPc, State.setSp]
  | push =>
    obtain rfl : s.setSp (s.sp - 1) = t := congrArg Prod.snd (Option.some.inj h)
    simp [Dst.extra, Dst.pushed, State.setPc, State.setSp]
  | literal n => cases h

/-- Resolving a moves PC past its extra word and SP up for a POP. -/
theorem resolveSrc_state (a : Src) (s : State) :
    (resolveSrc a s).2
      = (s.setPc (s.pc + BitVec.ofNat 16 a.extra.length)).setSp (s.sp + a.popped) := by
  cases a <;>
    simp [resolveSrc, resolvePlace_state, Src.extra, Src.popped, State.setPc, State.setSp]

/-- b resolves exactly when it is writable. -/
theorem resolveDst_eq_none {b : Dst} {s : State} : resolveDst b s = none ↔ b.writable = false := by
  cases b <;> simp [resolveDst, Dst.writable]

/-- Both operands resolve exactly when b is writable. -/
theorem resolveBoth_eq_none {b : Dst} {a : Src} {s : State} :
    resolveBoth b a s = none ↔ b.writable = false := by
  cases b <;> simp [resolveBoth, resolveDst, Dst.writable]

theorem resolveBoth_isSome {b : Dst} (h : b.writable = true) (a : Src) (s : State) :
    ∃ ld ra t, resolveBoth b a s = some (ld, ra, t) := by
  cases b with
  | place p => exact ⟨_, _, _, rfl⟩
  | push => exact ⟨_, _, _, rfl⟩
  | literal n => cases h

/-- Resolving both operands, when b resolves: PC past both extra words, SP by PUSH and POP. -/
theorem resolveBoth_state {b : Dst} {a : Src} {s t : State} {ld : Loc} {ra : Ref}
    (h : resolveBoth b a s = some (ld, ra, t)) :
    t = (s.setPc (s.pc + BitVec.ofNat 16 (b.extra.length + a.extra.length))).setSp
      (s.sp - b.pushed + a.popped) := by
  unfold resolveBoth at h
  split at h
  · cases h
  · rename_i ld' s₁ hb
    obtain rfl : (resolveSrc a s₁).2 = t := congrArg (fun p => p.2.2) (Option.some.inj h)
    rw [resolveSrc_state, resolveDst_state hb, BitVec.ofNat_add]
    simp [State.setPc, State.setSp, BitVec.add_assoc]

end Sys2Proof.Machine
end

