-- ==== Sys2Proof/Laws/Execute.lean ====
section
/-! SUPPORT. What raising a fault, the skip test and the execute phase can do, said once each, and
`exec` on a basic instruction as `executeBasic` of its semantics. -/

namespace Sys2Proof.Machine

/-! ### Raising a fault -/

/-- Raising a fault stops with it, and its final state differs from `s` in the status alone. -/
theorem raise_cases (reason : FaultReason) (address word : Word) (s : State) :
    ∃ f, raise reason address word s = .fault f ∧ f.reason = reason ∧
      f.final = s.setStatus (.faulted reason address word) := by
  cases reason <;> exact ⟨_, rfl, rfl, rfl⟩

theorem raise_ne_next {reason : FaultReason} {address word : Word} {s t : State} :
    raise reason address word s ≠ .next t := by
  obtain ⟨f, h, -⟩ := raise_cases reason address word s
  simp [h]

theorem raise_ne_refused {reason : FaultReason} {address word : Word} {s : State} {r : Refusal} :
    raise reason address word s ≠ .refused r := by
  obtain ⟨f, h, -⟩ := raise_cases reason address word s
  simp [h]

/-! ### Resolution and the skip test -/

/-- Everything `withOperands` can do: b is a literal and it faults; a skip was pending and the operands
are consumed; or the action runs on the resolved operands. -/
theorem withOperands_cases (w : Word) (b : Dst) (a : Src) (act : Loc → Ref → State → Result)
    (s : State) :
    (b.writable = false ∧ withOperands w b a act s
        = raise .literalDestination (s.pc - 1) w (literalDestinationState s)) ∨
    (∃ ld ra t, resolveBoth b a s = some (ld, ra, t) ∧
      ((s.skip = true ∧ withOperands w b a act s = .next (t.setSkip false)) ∨
        (s.skip = false ∧ withOperands w b a act s = act ld ra t))) := by
  unfold withOperands
  split
  · rename_i h
    exact .inl ⟨resolveBoth_eq_none.1 h, rfl⟩
  · rename_i ld ra t h
    have ht : t.skip = s.skip := by rw [resolveBoth_state h]; rfl
    refine .inr ⟨ld, ra, t, h, ?_⟩
    cases hs : s.skip
    · exact .inr ⟨rfl, by simp [ht, hs]⟩
    · exact .inl ⟨rfl, by simp [ht, hs]⟩

/-- With no skip pending and b resolved, the action runs. -/
theorem withOperands_of_resolved {w : Word} {b : Dst} {a : Src} {act : Loc → Ref → State → Result}
    {s t : State} {ld : Loc} {ra : Ref} (hs : s.skip = false)
    (h : resolveBoth b a s = some (ld, ra, t)) : withOperands w b a act s = act ld ra t := by
  have ht : t.skip = s.skip := by rw [resolveBoth_state h]; rfl
  simp [withOperands, h, ht, hs]

/-- With a skip pending and b resolved, the operands are consumed and skip is cleared. -/
theorem withOperands_of_skip {w : Word} {b : Dst} {a : Src} {act : Loc → Ref → State → Result}
    {s t : State} {ld : Loc} {ra : Ref} (hs : s.skip = true)
    (h : resolveBoth b a s = some (ld, ra, t)) :
    withOperands w b a act s = .next (t.setSkip false) := by
  have ht : t.skip = s.skip := by rw [resolveBoth_state h]; rfl
  simp [withOperands, h, ht, hs]

/-! ### Writing a location -/

section writeLoc
variable (s : State) (l : Loc) (v : Word)

@[simp] theorem State.writeLoc_skip : (s.writeLoc l v).skip = s.skip := by cases l <;> rfl
@[simp] theorem State.writeLoc_status : (s.writeLoc l v).status = s.status := by cases l <;> rfl
@[simp] theorem State.writeLoc_programLength :
    (s.writeLoc l v).programLength = s.programLength := by cases l <;> rfl

theorem State.writeLoc_reg {r : Reg} (h : l ≠ .reg r) : (s.writeLoc l v).reg r = s.reg r := by
  cases l with
  | reg i =>
    have hne : i ≠ r := fun e => h (e ▸ rfl)
    simp [State.writeLoc, State.reg_setReg, hne]
  | sp | pc | ex | mem a => rfl

theorem State.writeLoc_sp (h : l ≠ .sp) : (s.writeLoc l v).sp = s.sp := by cases l <;> trivial
theorem State.writeLoc_pc (h : l ≠ .pc) : (s.writeLoc l v).pc = s.pc := by cases l <;> trivial
theorem State.writeLoc_ex (h : l ≠ .ex) : (s.writeLoc l v).ex = s.ex := by cases l <;> trivial

theorem State.writeLoc_read (hm : s.mem.wf) {c : Word} (h : l ≠ .mem c) :
    (s.writeLoc l v).mem.read c = s.mem.read c := by
  cases l with
  | mem a =>
    have hne : c ≠ a := fun e => h (e ▸ rfl)
    simp [State.writeLoc, Memory.read_write hm, hne]
  | reg i => rfl
  | sp | pc | ex => rfl

theorem State.writeLoc_wf (hm : s.mem.wf) : (s.writeLoc l v).mem.wf := by
  cases l with
  | mem a => exact Memory.write_wf hm a v
  | reg i => exact hm
  | sp | pc | ex => exact hm

/-- A location reads as the word just written to it (spec/41_dispatch.md R128). -/
theorem State.readLoc_writeLoc (hm : s.mem.wf) : (s.writeLoc l v).readLoc l = v := by
  cases l <;> simp [State.writeLoc, State.readLoc, Memory.read_write hm]

end writeLoc

/-! ### The execute phase -/

/-- The semantics of a basic instruction as `executeBasic` is given them (R127). JSR has none. -/
def semanticsOf : Instr → Word → Word → Except FaultReason Effect
  | .set _ _ => fun _ S => .ok { result := some S }
  | .add _ _ => fun D S => .ok (resultAndEx (zext16 D + zext16 S))
  | .sub b _ => fun D S => .ok (resultAndEx (zext16 D - zext16 S - subPcExtra b))
  | .mul _ _ => fun D S => .ok (resultAndEx (zext16 D * zext16 S))
  | .mli _ _ => fun D S => .ok (resultAndEx (sext16 D * sext16 S))
  | .div _ _ => fun D S => .ok (divEffect D S)
  | .dvi _ _ => fun D S => .ok (dviEffect D S)
  | .mod _ _ => modEffect
  | .mdi _ _ => mdiEffect
  | .and _ _ => fun D S => .ok { result := some (D &&& S) }
  | .bor _ _ => fun D S => .ok { result := some (D ||| S) }
  | .xor _ _ => fun D S => .ok { result := some (D ^^^ S) }
  | .ife _ _ => fun D S => .ok (skipUnless (D = S))
  | .ifn _ _ => fun D S => .ok (skipUnless (D ≠ S))
  | .jsr _ => fun _ _ => .ok {}

/-- Every instruction but JSR runs the shared execute phase with its semantics. -/
theorem exec_eq_executeBasic {i : Instr} (h : ∀ a, i ≠ .jsr a) (s : State) :
    exec i s = executeBasic i (semanticsOf i) s := by
  cases i with
  | jsr a => exact absurd rfl (h a)
  | _ => rfl

/-- Every instruction is resolution, the skip test, and one action. -/
theorem exec_eq_withOperands (i : Instr) (s : State) :
    ∃ act, exec i s = withOperands i.word i.dst i.src act s := by
  cases i with
  | jsr a => exact ⟨fun _ ra t => .next (t.setPc (t.val ra)), rfl⟩
  | _ => exact ⟨_, rfl⟩

/-- The semantics fault only in MOD and MDI, on S = 0. -/
theorem semanticsOf_error {i : Instr} {D S : Word} {r : FaultReason}
    (h : semanticsOf i D S = .error r) :
    S = 0 ∧ ∃ op, i.dividesOrFaults = some op ∧ r = .divideByZero op := by
  cases i <;>
    simp_all [semanticsOf, modEffect, mdiEffect, Instr.dividesOrFaults]
  all_goals split at h <;> simp_all

/-- What the semantics ask for: D is written by the instructions that write D, EX by those that write
EX, and only IFE and IFN request a skip. -/
theorem semanticsOf_ok {i : Instr} {D S : Word} {e : Effect} (h : semanticsOf i D S = .ok e) :
    e.result.isSome = i.writesD ∧ e.exOut.isSome = i.writesEx ∧
      (e.skip = true → (∃ b a, i = .ife b a ∧ D ≠ S) ∨ ∃ b a, i = .ifn b a ∧ D = S) := by
  cases i <;>
    simp only [semanticsOf, modEffect, mdiEffect, divEffect, dviEffect] at h <;>
    (try split at h) <;>
    first
      | (obtain rfl := Except.ok.inj h
         simp [Instr.writesD, Instr.writesEx, resultAndEx, resultOnly, skipUnless])
      | cases h

/-- A basic instruction that runs: with no skip pending, b resolved and semantics that ask for `e`. -/
theorem executeBasic_of_ok {i : Instr} {sem : Word → Word → Except FaultReason Effect}
    {s t : State} {ld : Loc} {ra : Ref} {e : Effect} (hs : s.skip = false)
    (h : resolveBoth i.dst i.src s = some (ld, ra, t))
    (he : sem (t.readLoc ld) (t.val ra) = .ok e) :
    executeBasic i sem s = .next (t.applyEffect ld e) := by
  unfold executeBasic
  rw [withOperands_of_resolved hs h]
  simp only [he]

/-- A basic instruction whose semantics fault: nothing is written. -/
theorem executeBasic_of_error {i : Instr} {sem : Word → Word → Except FaultReason Effect}
    {s t : State} {ld : Loc} {ra : Ref} {r : FaultReason} (hs : s.skip = false)
    (h : resolveBoth i.dst i.src s = some (ld, ra, t))
    (he : sem (t.readLoc ld) (t.val ra) = .error r) :
    executeBasic i sem s = raise r (s.pc - 1) i.word t := by
  unfold executeBasic
  rw [withOperands_of_resolved hs h]
  simp only [he]

/-- Everything a basic instruction can answer. -/
theorem executeBasic_cases (i : Instr) (sem : Word → Word → Except FaultReason Effect) (s : State) :
    (i.dst.writable = false ∧ executeBasic i sem s
        = raise .literalDestination (s.pc - 1) i.word (literalDestinationState s)) ∨
    (∃ ld ra t, resolveBoth i.dst i.src s = some (ld, ra, t) ∧
      ((s.skip = true ∧ executeBasic i sem s = .next (t.setSkip false)) ∨
        (s.skip = false ∧ ∃ e, sem (t.readLoc ld) (t.val ra) = .ok e ∧
          executeBasic i sem s = .next (t.applyEffect ld e)) ∨
        (s.skip = false ∧ ∃ r, sem (t.readLoc ld) (t.val ra) = .error r ∧
          executeBasic i sem s = raise r (s.pc - 1) i.word t))) := by
  cases hr : resolveBoth i.dst i.src s with
  | none => exact .inl ⟨resolveBoth_eq_none.1 hr, by simp [executeBasic, withOperands, hr]⟩
  | some p =>
    obtain ⟨ld, ra, t⟩ := p
    refine .inr ⟨ld, ra, t, rfl, ?_⟩
    cases hs : s.skip with
    | true => exact .inl ⟨rfl, withOperands_of_skip hs hr⟩
    | false =>
      cases he : sem (t.readLoc ld) (t.val ra) with
      | ok e => exact .inr (.inl ⟨rfl, e, rfl, executeBasic_of_ok hs hr he⟩)
      | error r => exact .inr (.inr ⟨rfl, r, rfl, executeBasic_of_error hs hr he⟩)

/-! ### The writes of the execute phase -/

section applyEffect
variable (s : State) (ld : Loc) (e : Effect)

@[simp] theorem State.applyEffect_status : (s.applyEffect ld e).status = s.status := by
  unfold State.applyEffect
  cases e.result <;> cases e.exOut <;> cases e.skip <;> simp

@[simp] theorem State.applyEffect_programLength :
    (s.applyEffect ld e).programLength = s.programLength := by
  unfold State.applyEffect
  cases e.result <;> cases e.exOut <;> cases e.skip <;> simp

theorem State.applyEffect_skip : (s.applyEffect ld e).skip = (e.skip || s.skip) := by
  unfold State.applyEffect
  cases e.result <;> cases e.exOut <;> cases e.skip <;> simp

theorem State.applyEffect_mem :
    (s.applyEffect ld e).mem = match e.result with
      | some v => (s.writeLoc ld v).mem
      | none => s.mem := by
  unfold State.applyEffect
  cases e.result <;> cases e.exOut <;> cases e.skip <;> simp

theorem State.applyEffect_wf (hm : s.mem.wf) : (s.applyEffect ld e).mem.wf := by
  rw [State.applyEffect_mem]
  cases e.result with
  | none => exact hm
  | some v => exact State.writeLoc_wf s ld v hm

theorem State.applyEffect_reg {r : Reg} (h : ld ≠ .reg r) :
    (s.applyEffect ld e).reg r = s.reg r := by
  unfold State.applyEffect
  cases e.result <;> cases e.exOut <;> cases e.skip <;> simp [State.writeLoc_reg _ _ _ h]

theorem State.applyEffect_sp (h : ld ≠ .sp) : (s.applyEffect ld e).sp = s.sp := by
  unfold State.applyEffect
  cases e.result <;> cases e.exOut <;> cases e.skip <;> simp [State.writeLoc_sp _ _ _ h]

theorem State.applyEffect_pc (h : ld ≠ .pc) : (s.applyEffect ld e).pc = s.pc := by
  unfold State.applyEffect
  cases e.result <;> cases e.exOut <;> cases e.skip <;> simp [State.writeLoc_pc _ _ _ h]

theorem State.applyEffect_ex (h : ld ≠ .ex) (he : e.exOut = none) :
    (s.applyEffect ld e).ex = s.ex := by
  unfold State.applyEffect
  cases e.result <;> cases e.skip <;> simp [he, State.writeLoc_ex _ _ _ h]

theorem State.applyEffect_read (hm : s.mem.wf) {c : Word} (h : ld ≠ .mem c) :
    (s.applyEffect ld e).mem.read c = s.mem.read c := by
  rw [State.applyEffect_mem]
  cases e.result with
  | none => rfl
  | some v => exact State.writeLoc_read s ld v hm h

end applyEffect

end Sys2Proof.Machine
end

