-- ==== Sys2Proof/Laws/Arith.lean ====
section
/-! SUPPORT. What narrowing an exact result to its low and its high word gives, said once, and the word each
instruction writes to D. -/

namespace Sys2Proof.Machine

/-- The low word, as a number (spec/00_scope.md R9). -/
theorem w16_toNat (t : Int) : (w16 t).toNat = (t % 65536).toNat := BitVec.toNat_ofInt t

/-- The high word, as a number: division by 65536 rounds toward minus infinity (R11). -/
theorem highWord_toNat (t : Int) : (highWord t).toNat = (t / 65536 % 65536).toNat := by
  unfold highWord
  rw [show t >>> (16 : Nat) = t / 65536 from Int.shiftRight_eq_div_pow t 16, w16_toNat]

/-- Narrowing undoes the signed and the unsigned reading of a word. -/
@[simp] theorem w16_sext16 (w : Word) : w16 (sext16 w) = w := BitVec.ofInt_toInt

@[simp] theorem w16_zext16 (w : Word) : w16 (zext16 w) = w := by
  simp [w16, zext16, BitVec.ofInt_natCast]

/-! ### The low word of each exact result, as an operation on words -/

theorem w16_add (D S : Word) : w16 (zext16 D + zext16 S) = D + S := by
  apply BitVec.eq_of_toNat_eq
  simp only [w16_toNat, zext16, BitVec.toNat_add]
  omega

theorem w16_sub (D S : Word) : w16 (zext16 D - zext16 S) = D - S := by
  apply BitVec.eq_of_toNat_eq
  have := D.isLt
  have := S.isLt
  simp only [w16_toNat, zext16, BitVec.toNat_sub]
  omega

theorem w16_mul (D S : Word) : w16 (zext16 D * zext16 S) = D * S := by
  apply BitVec.eq_of_toNat_eq
  rw [w16_toNat, BitVec.toNat_mul]
  unfold zext16
  norm_cast

theorem w16_mul_signed (D S : Word) : w16 (sext16 D * sext16 S) = D * S := by
  unfold w16 sext16
  rw [BitVec.ofInt_mul, BitVec.ofInt_toInt, BitVec.ofInt_toInt]

theorem w16_div (D S : Word) : w16 (zext16 D / zext16 S) = D.udiv S := by
  apply BitVec.eq_of_toNat_eq
  have h : D.toNat / S.toNat < 65536 := Nat.lt_of_le_of_lt (Nat.div_le_self _ _) D.isLt
  rw [w16_toNat, BitVec.udiv_eq, BitVec.toNat_udiv]
  unfold zext16
  norm_cast
  exact Nat.mod_eq_of_lt h

theorem w16_div_signed (D S : Word) : w16 ((sext16 D).tdiv (sext16 S)) = D.sdiv S := by
  apply BitVec.eq_of_toInt_eq
  unfold w16 sext16
  rw [BitVec.toInt_sdiv, BitVec.toInt_ofInt]

theorem w16_mod (D S : Word) : w16 (zext16 D % zext16 S) = D.umod S := by
  apply BitVec.eq_of_toNat_eq
  have h : D.toNat % S.toNat < 65536 := Nat.lt_of_le_of_lt (Nat.mod_le _ _) D.isLt
  rw [w16_toNat, BitVec.umod_eq, BitVec.toNat_umod]
  unfold zext16
  norm_cast
  exact Nat.mod_eq_of_lt h

theorem w16_mod_signed (D S : Word) : w16 ((sext16 D).tmod (sext16 S)) = D.srem S := by
  unfold w16 sext16
  rw [← BitVec.toInt_srem, BitVec.ofInt_toInt]

/-- An instruction that writes D, whose b is not PC and that does not divide by zero with a fault, asks
for its result to be written there. -/
theorem semanticsOf_result {i : Instr} {D S : Word} (hD : i.writesD = true) (hb : i.dst ≠ .place .pc)
    (hS : i.dividesOrFaults = none ∨ S ≠ 0) :
    ∃ e, semanticsOf i D S = .ok e ∧ e.result = some (i.result D S) := by
  cases i with
  | set b a => exact ⟨_, rfl, rfl⟩
  | add b a => exact ⟨_, rfl, congrArg some (w16_add D S)⟩
  | sub b a =>
    have h0 : subPcExtra b = 0 := if_neg hb
    exact ⟨_, rfl, by simp only [resultAndEx, h0, Int.sub_zero, w16_sub, Instr.result]⟩
  | mul b a => exact ⟨_, rfl, congrArg some (w16_mul D S)⟩
  | mli b a => exact ⟨_, rfl, congrArg some (w16_mul_signed D S)⟩
  | div b a =>
    refine ⟨_, rfl, ?_⟩
    by_cases h : S = 0
    · simp only [divEffect, Instr.result, if_pos h]
    · simp only [divEffect, Instr.result, if_neg h, w16_div]
  | dvi b a =>
    refine ⟨_, rfl, ?_⟩
    by_cases h : S = 0
    · simp only [dviEffect, Instr.result, if_pos h]
    · simp only [dviEffect, Instr.result, if_neg h, w16_div_signed]
  | mod b a =>
    have h : S ≠ 0 := hS.resolve_left (by simp [Instr.dividesOrFaults])
    exact ⟨_, if_neg h, congrArg some (w16_mod D S)⟩
  | mdi b a =>
    have h : S ≠ 0 := hS.resolve_left (by simp [Instr.dividesOrFaults])
    exact ⟨_, if_neg h, congrArg some (w16_mod_signed D S)⟩
  | and b a | bor b a | xor b a => exact ⟨_, rfl, rfl⟩
  | ife b a | ifn b a | jsr a => cases hD

end Sys2Proof.Machine
end

