-- ==== Sys2Proof/Laws/Decode.lean ====
section
/-! SUPPORT. The fields of an instruction word, and the operand codes, one lemma each. -/

namespace Sys2Proof

/-! ### Fields (spec/30_encoding.md R71) -/

section fields
variable (o b : BitVec 5) (a : BitVec 6)

@[simp] theorem opcodeField_instructionWord : opcodeField (instructionWord o b a) = o := by
  apply BitVec.eq_of_getLsbD_eq
  intro i hi
  simp only [opcodeField, instructionWord, BitVec.getLsbD_extractLsb', BitVec.getLsbD_append]
  simp [hi]

@[simp] theorem destinationField_instructionWord : destinationField (instructionWord o b a) = b := by
  apply BitVec.eq_of_getLsbD_eq
  intro i hi
  simp only [destinationField, instructionWord, BitVec.getLsbD_extractLsb', BitVec.getLsbD_append]
  have : ¬ 5 + i < 5 := by omega
  have : 5 + i - 5 = i := by omega
  simp_all

@[simp] theorem sourceField_instructionWord : sourceField (instructionWord o b a) = a := by
  apply BitVec.eq_of_getLsbD_eq
  intro i hi
  simp only [sourceField, instructionWord, BitVec.getLsbD_extractLsb', BitVec.getLsbD_append]
  have h : 10 + i - 5 - 5 = i := by omega
  rw [if_neg (by omega), if_neg (by omega), h]
  simp [hi]

end fields

/-- A word is made of its three fields: no bit is left over. -/
theorem instructionWord_fields (w : Word) :
    instructionWord (opcodeField w) (destinationField w) (sourceField w) = w := by
  apply BitVec.eq_of_getLsbD_eq
  intro i hi
  simp only [opcodeField, destinationField, sourceField, instructionWord, BitVec.getLsbD_append,
    BitVec.getLsbD_extractLsb']
  split
  · simp_all
  · split
    · have : 5 + (i - 5) = i := by omega
      simp_all
    · have : 10 + (i - 5 - 5) = i := by omega
      have : i - 5 - 5 < 6 := by omega
      simp_all

/-! ### Operand codes (R73, R74) -/

/-- The register codes of one range: the register comes back, and the range is the one it began in. -/
theorem registerCode_spec (r : Reg) :
    (registerOf (registerCode 0x00#5 r) = r ∧ registerCode 0x00#5 r ≤ 0x07#5) ∧
    (registerOf (registerCode 0x08#5 r) = r ∧ ¬ registerCode 0x08#5 r ≤ 0x07#5 ∧
      registerCode 0x08#5 r ≤ 0x0F#5) ∧
    (registerOf (registerCode 0x10#5 r) = r ∧ ¬ registerCode 0x10#5 r ≤ 0x07#5 ∧
      ¬ registerCode 0x10#5 r ≤ 0x0F#5 ∧ registerCode 0x10#5 r ≤ 0x17#5) := by
  revert r
  decide

/-- A code of a register range is its register's code in that range, and takes an extra word only in
0x10–0x17. -/
theorem registerCode_registerOf (c : BitVec 5) :
    (c ≤ 0x07#5 → registerCode 0x00#5 (registerOf c) = c ∧ takesExtra (c.setWidth 6) = false) ∧
    (¬ c ≤ 0x07#5 → c ≤ 0x0F#5 →
      registerCode 0x08#5 (registerOf c) = c ∧ takesExtra (c.setWidth 6) = false) ∧
    (¬ c ≤ 0x0F#5 → c ≤ 0x17#5 →
      registerCode 0x10#5 (registerOf c) = c ∧ takesExtra (c.setWidth 6) = true) := by
  revert c
  decide

/-- A shared form's code decodes to the form, given its extra word if it has one. -/
theorem placeOfCode_code (p : Place) (n : Word) (h : ∀ m ∈ p.extra, m = n) :
    placeOfCode p.code n = some p := by
  cases p with
  | reg r => simp [placeOfCode, Place.code, registerCode_spec r]
  | ind r => simp [placeOfCode, Place.code, registerCode_spec r]
  | indDisp r m =>
    obtain rfl : m = n := h m (by simp [Place.extra])
    simp [placeOfCode, Place.code, registerCode_spec r]
  | pick m => obtain rfl : m = n := h m (by simp [Place.extra]); rfl
  | abs m => obtain rfl : m = n := h m (by simp [Place.extra]); rfl
  | peek | sp | pc | ex => rfl

/-- What a code decodes to as a shared form has that code, and the extra word exactly if the code takes
one. -/
theorem code_placeOfCode {c : BitVec 5} {n : Word} {p : Place} (h : placeOfCode c n = some p) :
    p.code = c ∧ p.extra = if takesExtra (c.setWidth 6) then [n] else [] := by
  obtain ⟨h1, h2, h3⟩ := registerCode_registerOf c
  unfold placeOfCode at h
  repeat' split at h
  all_goals first
    | (obtain rfl := Option.some.inj h
       simp_all [Place.code, Place.extra, takesExtra])
    | cases h

/-- The codes on which b and a differ are 0x18 and 0x1F. -/
theorem placeOfCode_eq_none {c : BitVec 5} {n : Word} :
    placeOfCode c n = none ↔ c = 0x18#5 ∨ c = 0x1F#5 := by
  have key : ∀ c : BitVec 5, ¬ c ≤ 0x17#5 → c ≠ 0x19#5 → c ≠ 0x1A#5 → c ≠ 0x1B#5 → c ≠ 0x1C#5 →
      c ≠ 0x1D#5 → c ≠ 0x1E#5 → c = 0x18#5 ∨ c = 0x1F#5 := by decide
  constructor
  · intro h
    unfold placeOfCode at h
    repeat' split at h
    all_goals first
      | exact key c ‹_› ‹_› ‹_› ‹_› ‹_› ‹_› ‹_›
      | cases h
  · rintro (rfl | rfl) <;> rfl

/-- A b operand's code decodes to it, given its extra word if it has one. -/
theorem decodeDst_code (b : Dst) (n : Word) (h : ∀ m ∈ b.extra, m = n) : decodeDst b.code n = b := by
  cases b with
  | place p =>
    have hp := placeOfCode_code p n h
    have hne : p.code ≠ 0x18#5 := by
      intro hc
      rw [hc] at hp
      cases hp
    simp [decodeDst, Dst.code, hp, hne]
  | push => rfl
  | literal m => obtain rfl : m = n := h m (by simp [Dst.extra]); rfl

/-- What a b code decodes to has that code, and the extra word exactly if the code takes one. -/
theorem code_decodeDst (c : BitVec 5) (n : Word) :
    (decodeDst c n).code = c ∧
      (decodeDst c n).extra = if takesExtra (c.setWidth 6) then [n] else [] := by
  unfold decodeDst
  split
  · rename_i h
    subst h
    exact ⟨rfl, rfl⟩
  · split
    · rename_i p hp
      exact code_placeOfCode hp
    · rename_i hne _ hp
      obtain rfl : c = 0x1F#5 := (placeOfCode_eq_none.1 hp).resolve_left hne
      exact ⟨rfl, rfl⟩

/-- Whether a b operand's code takes an extra word is whether the operand has one. -/
theorem takesExtra_dst (b : Dst) : takesExtra (b.code.setWidth 6) = !b.extra.isEmpty := by
  have h := code_decodeDst b.code (b.extra.headD 0)
  have hb : decodeDst b.code (b.extra.headD 0) = b := by
    apply decodeDst_code
    intro m hm
    cases b with
    | place p => cases p <;> simp_all [Dst.extra, Place.extra]
    | push => simp [Dst.extra] at hm
    | literal k => simpa [Dst.extra] using hm
  rw [hb] at h
  rw [h.2]
  cases takesExtra (b.code.setWidth 6) <;> rfl

/-- The a codes below 0x20 are the b codes, one bit wider; the others have that bit set. -/
theorem sourceCode_split (c : BitVec 6) :
    (¬ 0x20#6 ≤ c → (c.extractLsb' 0 5).setWidth 6 = c) ∧
    (0x20#6 ≤ c → 0x20#6 + (c.extractLsb' 0 5).setWidth 6 = c ∧ takesExtra c = false) := by
  revert c
  decide

theorem sourceCode_of_place (c : BitVec 5) :
    ¬ 0x20#6 ≤ c.setWidth 6 ∧ (c.setWidth 6).extractLsb' 0 5 = c := by
  revert c
  decide

theorem sourceCode_of_small (k : BitVec 5) :
    0x20#6 ≤ 0x20#6 + k.setWidth 6 ∧ (0x20#6 + k.setWidth 6).extractLsb' 0 5 = k := by
  revert k
  decide

/-- An a operand's code decodes to it, given its extra word if it has one. -/
theorem decodeSrc_code (a : Src) (n : Word) (h : ∀ m ∈ a.extra, m = n) : decodeSrc a.code n = a := by
  cases a with
  | place p =>
    have hp := placeOfCode_code p n h
    have hne : p.code ≠ 0x18#5 := by
      intro hc
      rw [hc] at hp
      cases hp
    simp only [decodeSrc, Src.code, sourceCode_of_place p.code, if_false, hne, hp]
  | pop => rfl
  | literal m => obtain rfl : m = n := h m (by simp [Src.extra]); rfl
  | small k => simp only [decodeSrc, Src.code, sourceCode_of_small k, if_true]

/-- What an a code decodes to has that code, and the extra word exactly if the code takes one. -/
theorem code_decodeSrc (c : BitVec 6) (n : Word) :
    (decodeSrc c n).code = c ∧ (decodeSrc c n).extra = if takesExtra c then [n] else [] := by
  obtain ⟨hlow, hhigh⟩ := sourceCode_split c
  by_cases h : 0x20#6 ≤ c
  · simp only [decodeSrc, h, if_true]
    exact ⟨(hhigh h).1, by simp [(hhigh h).2, Src.extra]⟩
  · have hc := hlow h
    simp only [decodeSrc, h, if_false]
    by_cases hk : c.extractLsb' 0 5 = 0x18#5
    · rw [hk] at hc
      subst hc
      exact ⟨rfl, rfl⟩
    · simp only [hk, if_false]
      cases hp : placeOfCode (c.extractLsb' 0 5) n with
      | some p =>
        have := code_placeOfCode hp
        rw [hc] at this
        exact ⟨by rw [Src.code, this.1, hc], this.2⟩
      | none =>
        rw [(placeOfCode_eq_none.1 hp).resolve_left hk] at hc
        subst hc
        exact ⟨rfl, rfl⟩

/-! ### The operands of a word, instruction or not -/

/-- A word's operands have the codes of its fields, and its extra words in R72's order. -/
theorem operands_of_fields (w e₁ e₂ : Word) :
    let b := decodeDst (destinationField w) e₁
    let a := decodeSrc (sourceField w)
      (if takesExtra ((destinationField w).setWidth 6) then e₂ else e₁)
    b.code = destinationField w ∧ a.code = sourceField w ∧ b.extra ++ a.extra <+: [e₁, e₂] := by
  refine ⟨(code_decodeDst _ _).1, (code_decodeSrc _ _).1, ?_⟩
  rw [(code_decodeDst _ _).2, (code_decodeSrc _ _).2]
  cases takesExtra ((destinationField w).setWidth 6) <;> cases takesExtra (sourceField w) <;> simp

/-- What a word decodes to when it is no instruction: its own operands, with the reason its opcode gives. -/
theorem decode_invalid {w e₁ e₂ : Word} {why : Invalid} {b : Dst} {a : Src}
    (h : decode w e₁ e₂ = .invalid why b a) :
    b = decodeDst (destinationField w) e₁ ∧
    a = decodeSrc (sourceField w)
      (if takesExtra ((destinationField w).setWidth 6) then e₂ else e₁) ∧
    why = if opcodeField w = 0x00#5 then .unknownSpecial (destinationField w)
      else .unknownOpcode (opcodeField w) := by
  simp only [decode] at h
  by_cases ho : opcodeField w = 0x00#5
  · rw [if_pos ho] at h
    rw [if_pos ho]
    by_cases hb : destinationField w = jsrCode
    · rw [if_pos hb] at h
      cases h
    · rw [if_neg hb] at h
      injection h with h1 h2 h3
      exact ⟨h2.symm, h3.symm, h1.symm⟩
  · rw [if_neg ho] at h
    rw [if_neg ho]
    generalize basicOfOpcode _ _ _ = r at h
    cases r with
    | some i => cases h
    | none =>
      injection h with h1 h2 h3
      exact ⟨h2.symm, h3.symm, h1.symm⟩

/-- What a basic opcode gives has the operands it was given. -/
theorem operands_of_basicOfOpcode {o : BitVec 5} {b : Dst} {a : Src} {i : Instr}
    (h : basicOfOpcode o b a = some i) : i.dst = b ∧ i.src = a := by
  unfold basicOfOpcode at h
  split at h
  all_goals first
    | (obtain rfl := Option.some.inj h
       exact ⟨rfl, rfl⟩)
    | cases h

/-- Every word's operands, instruction or not, have the codes of its fields and as many extra words as
those codes take (R74, R76, R79). -/
theorem decode_operands (w e₁ e₂ : Word) :
    (decode w e₁ e₂).dst.code = destinationField w ∧ (decode w e₁ e₂).src.code = sourceField w ∧
    (decode w e₁ e₂).dst.extra ++ (decode w e₁ e₂).src.extra <+: [e₁, e₂] := by
  have hof := operands_of_fields w e₁ e₂
  simp only at hof
  simp only [decode]
  by_cases ho : opcodeField w = 0x00#5
  · rw [if_pos ho]
    by_cases hb : destinationField w = jsrCode
    · rw [if_pos hb]
      rw [hb] at hof ⊢
      exact hof
    · rw [if_neg hb]
      exact hof
  · rw [if_neg ho]
    split
    · rename_i i hi
      obtain ⟨h1, h2⟩ := operands_of_basicOfOpcode hi
      simp only [Decoded.dst, Decoded.src, h1, h2]
      exact hof
    · exact hof

end Sys2Proof
end

