-- ==== Sys2Proof/Laws/PerInstr.lean ====
section
/-! SUPPORT. Statements about every instruction as syntax, one lemma per constructor. -/

namespace Sys2Proof.Laws.EncodeLength

/-- An instruction takes `1 + ext(b) + ext(a)` words, 1 to 3 (spec/30_encoding.md R76). -/
def Statement (i : Instr) : Prop := (encode i).length = i.length ∧ 1 ≤ i.length ∧ i.length ≤ 3

theorem place_extra_le (p : Place) : p.extra.length ≤ 1 := by cases p <;> simp [Place.extra]

theorem dst_extra_le (b : Dst) : b.extra.length ≤ 1 := by
  cases b <;> simp [Dst.extra, place_extra_le]

theorem src_extra_le (a : Src) : a.extra.length ≤ 1 := by
  cases a <;> simp [Src.extra, place_extra_le]

/-- The one proof behind the lemmas below: it uses nothing of the instruction but its operands. -/
theorem of_operands (i : Instr) : Statement i := by
  have hb := dst_extra_le i.dst
  have ha := src_extra_le i.src
  refine ⟨?_, ?_, ?_⟩ <;> simp only [encode, Instr.length, List.length_cons, List.length_append] <;> omega

theorem set (b : Dst) (a : Src) : Statement (.set b a) := of_operands _
theorem add (b : Dst) (a : Src) : Statement (.add b a) := of_operands _
theorem sub (b : Dst) (a : Src) : Statement (.sub b a) := of_operands _
theorem mul (b : Dst) (a : Src) : Statement (.mul b a) := of_operands _
theorem mli (b : Dst) (a : Src) : Statement (.mli b a) := of_operands _
theorem div (b : Dst) (a : Src) : Statement (.div b a) := of_operands _
theorem dvi (b : Dst) (a : Src) : Statement (.dvi b a) := of_operands _
theorem mod (b : Dst) (a : Src) : Statement (.mod b a) := of_operands _
theorem mdi (b : Dst) (a : Src) : Statement (.mdi b a) := of_operands _
theorem and (b : Dst) (a : Src) : Statement (.and b a) := of_operands _
theorem bor (b : Dst) (a : Src) : Statement (.bor b a) := of_operands _
theorem xor (b : Dst) (a : Src) : Statement (.xor b a) := of_operands _
theorem ife (b : Dst) (a : Src) : Statement (.ife b a) := of_operands _
theorem ifn (b : Dst) (a : Src) : Statement (.ifn b a) := of_operands _
theorem jsr (a : Src) : Statement (.jsr a) := of_operands _

end Sys2Proof.Laws.EncodeLength
end

