-- ==== Sys2Proof/Laws/Step.lean ====
section
/-! SUPPORT. What one step can do, said once: the run loop's turn, and the dispatcher's step as resolution
of the decoded operands, the skip test, and one action. -/

namespace Sys2Proof.Machine

/-- Everything a step can do: run the dispatcher's step below N, halt at N, or refuse after the end. -/
theorem step_cases (s : State) :
    (s.status = .running ∧ s.pc.toNat < s.programLength ∧ step s = dispatcherStep s) ∨
    (s.status = .running ∧ s.programLength ≤ s.pc.toNat ∧
      step s = .next (s.setStatus .halted)) ∨
    (s.status ≠ .running ∧ step s = .refused .runEnded) := by
  unfold step runTurn
  cases hs : s.status with
  | running =>
    by_cases hp : s.pc.toNat < s.programLength
    · exact .inl ⟨rfl, hp, by simp [State.inProgram, hp]⟩
    · exact .inr (.inl ⟨rfl, Nat.le_of_not_lt hp, by simp [State.inProgram, hp]⟩)
  | halted => exact .inr (.inr ⟨by simp, rfl⟩)
  | faulted r a w => exact .inr (.inr ⟨by simp, rfl⟩)

/-- The words at PC are what the dispatcher decodes. -/
theorem decodeNext_nextWord (s : State) : decodeNext s.nextWord.1 s.nextWord.2 = s.decoded := by
  have h : s.pc + 1 + 1 = s.pc + 2 := by rw [BitVec.add_assoc]; rfl
  simp only [decodeNext, State.decoded, State.nextWord_fst, State.nextWord_snd, State.setPc_mem,
    State.setPc_pc, h]

/-- The dispatcher's step on what stands at PC. -/
theorem dispatcherStep_eq (s : State) :
    dispatcherStep s = match s.decoded with
      | .instr i => exec i (s.setPc (s.pc + 1))
      | .invalid why b a => execInvalid why (s.mem.read s.pc) b a (s.setPc (s.pc + 1)) := by
  unfold dispatcherStep dispatch
  rw [decodeNext_nextWord]
  rfl

/-- Whatever stands at PC, the dispatcher's step is resolution of its operands, the skip test and one
action. -/
theorem dispatcherStep_eq_withOperands (s : State) :
    ∃ w act, dispatcherStep s
      = withOperands w s.decoded.dst s.decoded.src act (s.setPc (s.pc + 1)) := by
  rw [dispatcherStep_eq]
  cases s.decoded with
  | instr i =>
    obtain ⟨act, h⟩ := exec_eq_withOperands i (s.setPc (s.pc + 1))
    exact ⟨_, act, h⟩
  | invalid why b a => exact ⟨_, _, rfl⟩

/-- PC after the instruction word and the operands' extra words (spec/41_dispatch.md R134). -/
theorem pc_after_operands (s : State) (d : Decoded) :
    s.pc + 1 + BitVec.ofNat 16 (d.dst.extra.length + d.src.extra.length)
      = s.pc + BitVec.ofNat 16 d.length := by
  rw [BitVec.add_assoc, Decoded.length, Nat.add_assoc, BitVec.ofNat_add 1]
  rfl

/-- An invalid word goes on only when it is skipped. -/
theorem execInvalid_next {why : Invalid} {w : Word} {b : Dst} {a : Src} {s t : State}
    (h : execInvalid why w b a s = .next t) :
    s.skip = true ∧ ∃ ld ra u, resolveBoth b a s = some (ld, ra, u) ∧ t = u.setSkip false := by
  rcases withOperands_cases w b a (fun _ _ t => raise (invalidReason why) (s.pc - 1) w t) s with
    ⟨-, hr⟩ | ⟨ld, ra, u, hb, ⟨hs, hr⟩ | ⟨-, hr⟩⟩
  · exact absurd (hr.symm.trans h) raise_ne_next
  · refine ⟨hs, ld, ra, u, hb, ?_⟩
    have := hr.symm.trans h
    injection this with e
    exact e.symm
  · exact absurd (hr.symm.trans h) raise_ne_next

/-- Every way the dispatcher's step goes on: the operands of a skipped word are consumed, or an unskipped
basic instruction's effect is applied, or JSR jumps. -/
theorem dispatcherStep_next {s t : State} (h : dispatcherStep s = .next t) :
    ∃ ld ra u, resolveBoth s.decoded.dst s.decoded.src (s.setPc (s.pc + 1)) = some (ld, ra, u) ∧
      ((s.skip = true ∧ t = u.setSkip false) ∨
        (s.skip = false ∧ ∃ i e, (∀ a, i ≠ .jsr a) ∧ s.decoded = .instr i ∧
          semanticsOf i (u.readLoc ld) (u.val ra) = .ok e ∧ t = u.applyEffect ld e) ∨
        (s.skip = false ∧ ∃ a, s.decoded = .instr (.jsr a) ∧ t = u.setPc (u.val ra))) := by
  rw [dispatcherStep_eq] at h
  cases hd : s.decoded with
  | invalid why b a =>
    rw [hd] at h
    obtain ⟨hs, ld, ra, u, hb, rfl⟩ := execInvalid_next h
    exact ⟨ld, ra, u, hb, .inl ⟨hs, rfl⟩⟩
  | instr i =>
    rw [hd] at h
    by_cases hj : ∃ a, i = .jsr a
    · obtain ⟨a, rfl⟩ := hj
      obtain ⟨ld, ra, u, hb⟩ :=
        resolveBoth_isSome (b := (Instr.jsr a).dst) rfl a (s.setPc (s.pc + 1))
      have h : withOperands (Instr.jsr a).word (Instr.jsr a).dst a
          (fun _ ra t => .next (t.setPc (t.val ra))) (s.setPc (s.pc + 1)) = .next t := h
      refine ⟨ld, ra, u, hb, ?_⟩
      cases hs : s.skip with
      | true =>
        have e := (withOperands_of_skip (s := s.setPc (s.pc + 1)) hs hb).symm.trans h
        injection e with e
        exact .inl ⟨rfl, e.symm⟩
      | false =>
        have e := (withOperands_of_resolved (s := s.setPc (s.pc + 1)) hs hb).symm.trans h
        injection e with e
        exact .inr (.inr ⟨rfl, a, rfl, e.symm⟩)
    · have hj : ∀ a, i ≠ .jsr a := fun a e => hj ⟨a, e⟩
      have h : executeBasic i (semanticsOf i) (s.setPc (s.pc + 1)) = .next t :=
        (exec_eq_executeBasic hj _).symm.trans h
      rcases executeBasic_cases i (semanticsOf i) (s.setPc (s.pc + 1)) with
        ⟨-, hr⟩ | ⟨ld, ra, u, hb, ⟨hs, hr⟩ | ⟨hs, e, he, hr⟩ | ⟨-, r, -, hr⟩⟩
      · exact absurd (hr.symm.trans h) raise_ne_next
      · have e := hr.symm.trans h
        injection e with e
        exact ⟨ld, ra, u, hb, .inl ⟨hs, e.symm⟩⟩
      · have e' := hr.symm.trans h
        injection e' with e'
        exact ⟨ld, ra, u, hb, .inr (.inl ⟨hs, i, e, hj, rfl, he, e'.symm⟩)⟩
      · exact absurd (hr.symm.trans h) raise_ne_next

/-! ### Runs -/

/-- A run's first step. -/
theorem core_run_succ (k : Nat) (s : State) :
    core.run (k + 1) s = match step s with
      | .next t => core.run k t
      | .fault f => .fault f
      | .refused r => .refused r := by
  refine (Host.Core.run.eq_2 core s k).trans ?_
  rw [show core.step s = step s from rfl]
  cases step s <;> rfl

/-- A run's last step. -/
theorem core_run_succ_last (k : Nat) (s : State) :
    core.run (k + 1) s = match core.run k s with
      | .next t => step t
      | .fault f => .fault f
      | .refused r => .refused r := by
  induction k generalizing s with
  | zero =>
    rw [core_run_succ]
    change _ = step s
    cases step s <;> rfl
  | succ k ih =>
    rw [core_run_succ, core_run_succ k]
    cases step s with
    | next t => exact ih t
    | fault f => rfl
    | refused r => rfl

end Sys2Proof.Machine
end

