-- ==== Sys2Proof/Tests/Slice0.lean ====
section
/-! SUPPORT. Tests: expected words and values are those of spec/30_encoding.md and of the vectors V<n>
and sequences S<n> of spec/95_test_vectors.md, and each statement's hypotheses are met by a named
witness. -/

namespace Sys2Proof.Tests

open Sys2Proof.Machine

/-! ### Helpers -/

/-- The reset state, changed by `f`, with `words` where the next step fetches. -/
def start (words : List Word) (f : State → State := id) : State := (f State.reset).placeAtPc words

/-- One step of a start state, and what `view` sees of the state after it. -/
def after {α : Type} (view : State → α) (words : List Word) (f : State → State := id) : Option α :=
  (nextOf (step (start words f))).map view

/-- One step of a start state that faults, and the reason. -/
def faults (words : List Word) (f : State → State := id) : Option FaultReason :=
  (faultOf (step (start words f))).map Fault.reason

def a (t : State) : Word × Word × Word := (t.reg 0, t.ex, t.pc)

/-- The word at `n` after the step, with SP and PC. -/
def word (n : Word) (t : State) : Word × Word × Word := (t.mem.read n, t.sp, t.pc)

def withA (v : Word) (s : State) : State := s.setReg 0 v
def withAB (v w : Word) (s : State) : State := (s.setReg 0 v).setReg 1 w
def withAEx (v w : Word) (s : State) : State := (s.setReg 0 v).setEx w
def withMem (n v : Word) (s : State) : State := s.setMem (s.mem.write n v)

theorem next_of_nextOf {r : Result} (h : (nextOf r).isSome = true) : ∃ t, r = .next t := by
  cases r with
  | next t => exact ⟨t, rfl⟩
  | fault f => cases h
  | refused e => cases h

theorem fault_of_faultOf {r : Result} (h : (faultOf r).isSome = true) : ∃ f, r = .fault f := by
  cases r with
  | next t => cases h
  | fault f => exact ⟨f, rfl⟩
  | refused e => cases h

/-! ### WellFormed (spec/30_encoding.md R81) -/

/-- `SET <0x1F>, 5` and `IFE <0x1F>, 5` are refused; the same with a register are not. -/
theorem test_wellFormed_refuses_literal_destination :
    (Instr.set (.literal 0) (.small 6)).wellFormed = false ∧
    (Instr.ife (.literal 0) (.small 6)).wellFormed = false ∧
    (Instr.set (.place (.reg 0)) (.small 6)).wellFormed = true ∧
    (Instr.jsr (.literal 0)).wellFormed = true := by decide

/-! ### Decoding: each constructor by a word written out from the spec -/

theorem test_decode_arithmetic :
    decode 0x7C01 0x0030 0 = .instr (.set (.place (.reg 0)) (.literal 0x0030)) ∧
    decode 0x8C02 0 0 = .instr (.add (.place (.reg 0)) (.small 3)) ∧
    decode 0x9003 0 0 = .instr (.sub (.place (.reg 0)) (.small 4)) ∧
    decode 0x0404 0 0 = .instr (.mul (.place (.reg 0)) (.place (.reg 1))) ∧
    decode 0x8C05 0 0 = .instr (.mli (.place (.reg 0)) (.small 3)) ∧
    decode 0x8C06 0 0 = .instr (.div (.place (.reg 0)) (.small 3)) ∧
    decode 0x8C07 0 0 = .instr (.dvi (.place (.reg 0)) (.small 3)) ∧
    decode 0x9808 0 0 = .instr (.mod (.place (.reg 0)) (.small 6)) ∧
    decode 0xC409 0 0 = .instr (.mdi (.place (.reg 0)) (.small 17)) := by decide

theorem test_decode_the_other_families :
    decode 0x7C0A 0xFF00 0 = .instr (.and (.place (.reg 0)) (.literal 0xFF00)) ∧
    decode 0x7C0B 0x00F0 0 = .instr (.bor (.place (.reg 0)) (.literal 0x00F0)) ∧
    decode 0x800C 0 0 = .instr (.xor (.place (.reg 0)) (.small 0)) ∧
    decode 0x0412 0 0 = .instr (.ife (.place (.reg 0)) (.place (.reg 1))) ∧
    decode 0x9813 0 0 = .instr (.ifn (.place (.reg 0)) (.small 6)) ∧
    decode 0xC420 0 0 = .instr (.jsr (.small 17)) := by decide

/-- Every source code (V6, V8, V10, V15, V17, V21, V23, V25, V27, V2, V1). -/
theorem test_decode_sources :
    decode 0x2401 0 0 = .instr (.set (.place (.reg 0)) (.place (.ind 1))) ∧
    decode 0x4401 0x0010 0 = .instr (.set (.place (.reg 0)) (.place (.indDisp 1 0x0010))) ∧
    decode 0x6001 0 0 = .instr (.set (.place (.reg 0)) .pop) ∧
    decode 0x6401 0 0 = .instr (.set (.place (.reg 0)) (.place .peek)) ∧
    decode 0x6801 1 0 = .instr (.set (.place (.reg 0)) (.place (.pick 1))) ∧
    decode 0x6C01 0 0 = .instr (.set (.place (.reg 0)) (.place .sp)) ∧
    decode 0x7001 0 0 = .instr (.set (.place (.reg 0)) (.place .pc)) ∧
    decode 0x7421 0 0 = .instr (.set (.place (.reg 1)) (.place .ex)) ∧
    decode 0x7801 0x1000 0 = .instr (.set (.place (.reg 0)) (.place (.abs 0x1000))) ∧
    decode 0x8001 0 0 = .instr (.set (.place (.reg 0)) (.small 0)) ∧
    decode 0xFC01 0 0 = .instr (.set (.place (.reg 0)) (.small 31)) := by decide

/-- Every destination code (V7, V9, V12, V14, V16, V22, V26, V28, V35, E1), and b's extra word before
a's (P7). -/
theorem test_decode_destinations :
    decode 0x0501 0 0 = .instr (.set (.place (.ind 0)) (.place (.reg 1))) ∧
    decode 0xA221 0xFFFF 0 = .instr (.set (.place (.indDisp 1 0xFFFF)) (.small 8)) ∧
    decode 0xA301 0 0 = .instr (.set .push (.small 8)) ∧
    decode 0xA321 0 0 = .instr (.set (.place .peek) (.small 8)) ∧
    decode 0xA341 2 0 = .instr (.set (.place (.pick 2)) (.small 8)) ∧
    decode 0x7F61 0x8000 0 = .instr (.set (.place .sp) (.literal 0x8000)) ∧
    decode 0x9BA1 0 0 = .instr (.set (.place .ex) (.small 6)) ∧
    decode 0x7FC1 0x1000 0x0020 = .instr (.set (.place (.abs 0x1000)) (.literal 0x0020)) ∧
    decode 0xC781 0 0 = .instr (.set (.place .pc) (.small 17)) ∧
    decode 0x7CE1 0xBEEF 0 = .instr (.set (.place (.reg 7)) (.literal 0xBEEF)) ∧
    decode 0x5AC1 0x4000 0x0008
      = .instr (.set (.place (.indDisp 6 0x4000)) (.place (.indDisp 6 0x0008))) := by decide

/-- The words that are no instruction (V107, V108, V111 to V113), and a literal destination (V115). -/
theorem test_decode_reserved :
    decode 0x0000 0 0 = .invalid (.unknownSpecial 0x00) (.place (.reg 0)) (.place (.reg 0)) ∧
    decode 0x0040 0 0 = .invalid (.unknownSpecial 0x02) (.place (.reg 2)) (.place (.reg 0)) ∧
    decode 0x000F 0 0 = .invalid (.unknownOpcode 0x0F) (.place (.reg 0)) (.place (.reg 0)) ∧
    decode 0x0014 0 0 = .invalid (.unknownOpcode 0x14) (.place (.reg 0)) (.place (.reg 0)) ∧
    decode 0x7C1F 0x1234 0 = .invalid (.unknownOpcode 0x1F) (.place (.reg 0)) (.literal 0x1234) ∧
    decode 0x9BE1 0 0 = .instr (.set (.literal 0) (.small 6)) := by decide

/-- The host's numbering: the instruction word in bits 15..0, the extra words above it (R71, R87). -/
theorem test_decodeTableWord :
    decodeTableWord 48 0x002010007FC1 = some (.set (.place (.abs 0x1000)) (.literal 0x0020)) ∧
    decodeTableWord 16 0xC420 = some (.jsr (.small 17)) ∧
    decodeTableWord 16 0x000F = none := by decide

/-! ### One step of each instruction -/

/-- V8 and V9: the displacement wraps; V30: so does PC. -/
theorem test_set_reads_indexed_memory :
    after a [0x4401, 0x0010] (fun s => (s.setReg 1 0xFFFF).setMem (s.mem.write 0x000F 0x0F0F))
      = some (0x0F0F, 0, 2) ∧
    after a [0x7C01, 0x0030] (·.setPc 0xFFFF) = some (0x0030, 0, 1) := by decide

/-- V12, V18 and V20: PUSH writes below SP, and the source sees the new SP. -/
theorem test_set_push :
    after (word 0xFFFE) [0xA301] = some (7, 0xFFFE, 1) ∧
    after (word 0xFFFE) [0x6F01] = some (0xFFFE, 0xFFFE, 1) ∧
    after (word 0xFFFE) [0x6701] (fun s => (s.setSp 0xFFFE).setMem (s.mem.write 0xFFFE 0x1234))
      = some (0x1234, 0xFFFD, 1) := by decide

/-- V37 -/
theorem test_add_carries : after a [0x0402] (withAB 0xFFFF 0xFFFF) = some (0xFFFE, 1, 1) := by decide

/-- V40: with EX as destination the carry wins. -/
theorem test_add_to_ex : after a [0x8BA2] (·.setEx 0xFFFF) = some (0, 1, 1) := by decide

/-- V42, V43 and V44 -/
theorem test_sub_borrows :
    after a [0x9003] (withA 5) = some (2, 0, 1) ∧
    after a [0x8803] (withA 0) = some (0xFFFF, 0xFFFF, 1) ∧
    after a [0x0003] (withAEx 0x1234 0x7777) = some (0, 0, 1) := by decide

/-- V46 to V49: SUB PC takes off one more; the boundary is S = PC. -/
theorem test_sub_pc :
    after a [0x8B83] = some (0, 0xFFFF, 0xFFFF) ∧ after a [0x8783] = some (0, 0, 0) ∧
    after a [0x8383] = some (0, 0xFFFF, 1) ∧ after a [0x8F83] (·.setPc 5) = some (0, 0, 3) := by decide

/-- V51 and V53 -/
theorem test_mul_high_half :
    after a [0x0404] (withAB 0xFFFF 0xFFFF) = some (1, 0xFFFE, 1) ∧
    after a [0x8C04] (withA 0x8000) = some (0, 1, 1) := by decide

/-- V54, V55 and V57 -/
theorem test_mli_high_half :
    after a [0x8C05] (withA 0xFFFF) = some (0xFFFE, 0xFFFF, 1) ∧
    after a [0x0005] (withA 0x8000) = some (0, 0x4000, 1) ∧
    after a [0x0405] (withAB 0x7FFF 0x7FFF) = some (1, 0x3FFF, 1) := by decide

/-- V58 and V60: the quotient, and whatever DIV_EX is, EX holds it. -/
theorem test_div_quotient :
    after a [0x8C06] (withA 7) = some (3, Config.divEx 7 2, 1) ∧
    after a [0x8C06] (withA 0xFFF9) = some (0x7FFC, Config.divEx 0xFFF9 2, 1) := ⟨rfl, rfl⟩

/-- V63 -/
theorem test_div_by_zero : after a [0x8406] (withAEx 0x1234 0x7777) = some (0, 0, 1) := by decide

/-- V64, V66 and V68: toward zero, and −32768 over −1 wraps. -/
theorem test_dvi_quotient :
    after a [0x8C07] (withA 0xFFF9) = some (0xFFFD, Config.dviEx 0xFFF9 2, 1) ∧
    after a [0x0407] (withAB 0xFFF9 0xFFFE) = some (3, Config.dviEx 0xFFF9 0xFFFE, 1) ∧
    after a [0x8007] (withA 0x8000) = some (0x8000, Config.dviEx 0x8000 0xFFFF, 1) := ⟨rfl, rfl, rfl⟩

/-- V69 -/
theorem test_dvi_by_zero : after a [0x8407] (withAEx 0x8000 0x7777) = some (0, 0, 1) := by decide

/-- V71 and V73: unsigned, EX unchanged. -/
theorem test_mod_remainder :
    after a [0x8C08] (withA 0xFFF9) = some (1, 0, 1) ∧
    after a [0xA808] (withAEx 4 0x7777) = some (4, 0x7777, 1) := by decide

/-- V74 -/
theorem test_mod_by_zero : faults [0x8408] (withA 0x1234) = some (.divideByZero .mod) := by decide

/-- V77 to V79: the sign of D. -/
theorem test_mdi_remainder :
    after a [0x8C09] (withA 0xFFF9) = some (0xFFFF, 0, 1) ∧
    after a [0x0409] (withAB 7 0xFFFE) = some (1, 0, 1) ∧
    after a [0x0409] (withAB 0xFFF9 0xFFFE) = some (0xFFFF, 0, 1) := by decide

/-- V81 -/
theorem test_mdi_by_zero : faults [0x8409] (withA 0x1234) = some (.divideByZero .mdi) := by decide

/-- V82, V85, V88: EX unchanged. -/
theorem test_bitwise :
    after a [0x7C0A, 0xFF00] (withAEx 0x1234 0x7777) = some (0x1200, 0x7777, 2) ∧
    after a [0x7C0B, 0x00F0] (withAEx 0x1204 0x7777) = some (0x12F4, 0x7777, 2) ∧
    after a [0x800C] (withAEx 0x00FF 0x7777) = some (0xFF00, 0x7777, 1) := by decide

/-- V90 -/
theorem test_xor_to_memory :
    after (word 0x2000) [0x7FCC, 0x2000, 0x00FF] (withMem 0x2000 0x0F0F)
      = some (0x0FF0, 0xFFFF, 3) := by decide

/-- V91, V92 and V99 -/
theorem test_ife :
    after State.skip [0x0412] (withAB 1 2) = some true ∧
    after State.skip [0x0412] (withAB 2 2) = some false ∧
    after (fun t => (t.skip, t.sp, t.pc)) [0x8712] = some (false, 0xFFFE, 1) := by decide

/-- V96, V97 and V100 -/
theorem test_ifn :
    after State.skip [0x9813] (withA 5) = some true ∧
    after State.skip [0x9813] (withA 4) = some false ∧
    after (fun t => (t.skip, t.sp, t.pc)) [0x6013]
      (fun s => ((s.setReg 0 3).setSp 0xFFFE).setMem (s.mem.write 0xFFFE 3))
      = some (true, 0xFFFF, 1) := by decide

/-- V102, V104 and V105: JSR pushes nothing. -/
theorem test_jsr :
    after (word 0xFFFE) [0xC420] = some (0, 0xFFFF, 0x0010) ∧
    after (word 0xFFFE) [0x6020] (fun s => (s.setSp 0xFFFE).setMem (s.mem.write 0xFFFE 0x0042))
      = some (0x0042, 0xFFFF, 0x0042) ∧
    after (word 0xFFFE) [0x7020] = some (0, 0xFFFF, 1) := by decide

/-! ### Faults and skips -/

/-- V31, V101, V107 to V114 -/
theorem test_faults :
    faults [0x9BE1] = some .literalDestination ∧ faults [0x9BF2] = some .literalDestination ∧
    faults [0x0000] = some (.unknownSpecial 0x00) ∧ faults [0x0300] = some (.unknownSpecial 0x18) ∧
    faults [0x03E0] = some .literalDestination ∧ faults [0x000F] = some (.unknownOpcode 0x0F) ∧
    faults [0x0014] = some (.unknownOpcode 0x14) ∧
    faults [0x7C1F, 0x1234] = some (.unknownOpcode 0x1F) ∧
    faults [0x87E8] = some .literalDestination := ⟨rfl, rfl, rfl, rfl, rfl, rfl, rfl, rfl, rfl⟩

/-- S1, S2, S3: a skipped instruction's words are consumed, PUSH and POP move SP, nothing is written. -/
theorem test_skip_consumes :
    after (word 0x1000) [0x7FC1, 0x1000, 0x0020] (·.setSkip true) = some (0, 0xFFFF, 3) ∧
    after (word 0xFFFE) [0xA301] (·.setSkip true) = some (0, 0xFFFE, 1) ∧
    after (fun t => (t.reg 1, t.sp, t.skip)) [0x6021]
      (fun s => (s.setSkip true).setMem (s.mem.write 0xFFFF 9)) = some (0, 0, false) := by decide

/-- R76 and R123: a skipped reserved word takes the extra words of its codes, an unknown special's too. -/
theorem test_skipped_reserved_words_take_their_extra_words :
    after a [0x7E0F, 5, 6] (·.setSkip true) = some (0, 0, 3) ∧
    after a [0x020F, 5] (·.setSkip true) = some (0, 0, 2) ∧
    after a [0x0200, 5] (·.setSkip true) = some (0, 0, 2) := by decide

/-- S4, S7, S8, S10: reserved words, JSR and MOD by zero do nothing when skipped; S5: a literal
destination still faults; S6: a skipped conditional requests no skip. -/
theorem test_skip_hides_all_faults_but_one :
    after a [0x000F] (·.setSkip true) = some (0, 0, 1) ∧
    after a [0x7C20, 0x0100] (·.setSkip true) = some (0, 0, 2) ∧
    after a [0x8408] (·.setSkip true) = some (0, 0, 1) ∧
    after a [0x0000] (·.setSkip true) = some (0, 0, 1) ∧
    after State.skip [0x8413] (·.setSkip true) = some false ∧
    faults [0x9BE1] (·.setSkip true) = some .literalDestination :=
  ⟨by decide, by decide, by decide, by decide, by decide, rfl⟩

/-- S9 and E9: at PC ≥ N the run halts, with a pending skip left as it is. -/
theorem test_halts_past_the_program :
    (nextOf (step ((State.reset.setPc 2).setSkip true))).map (fun t => (t.status, t.skip, t.pc))
      = some (.halted, true, 2) := by decide

/-! ### Witnesses: states and operands that meet the hypotheses of each statement -/

/-- A start state with a skip pending. -/
def skipping (words : List Word) : State := (start words).setSkip true

theorem witness_LoadPlacesImageAndClearsRegisters :
    ([0x8801, 0x9781] : List Word).length ≤ 65536 ∧ (0 < 2 ∧ 1 < 2) ∧
    ([] : List Word).length ≤ 65536 := by decide

/-- One word and the boundaries after it; and 65537 words. -/
theorem witness_LoadLeavesTheRestAsDecided :
    (∃ s, load [0x8801] = some s) ∧ (1 ≤ 1 ∧ 1 < 65536) ∧ (1 ≤ 65535 ∧ 65535 < 65536) ∧
    65536 < (List.replicate 65537 (0 : Word)).length :=
  ⟨⟨_, rfl⟩, by decide, by decide, by rw [List.length_replicate]; decide⟩

theorem witness_FileBytesAreLittleEndianWords :
    ([0x01] : List Byte).length % 2 = 1 ∧ ([0x01, 0x88, 0x21] : List Byte).length % 2 = 1 := by decide

theorem witness_InvariantHoldsAfterLoad :
    (∃ s, load [] = some s) ∧ ∃ s, load [0x8801] = some s := ⟨⟨_, rfl⟩, ⟨_, rfl⟩⟩

/-- A start state meets the invariant and steps on: running and storing, and at the halt. -/
theorem witness_EveryStepKeepsTheInvariant :
    ((start [0xA301]).Inv ∧ ∃ t, step (start [0xA301]) = .next t) ∧
    State.reset.Inv ∧ ∃ t, step State.reset = .next t :=
  ⟨⟨⟨by decide, by decide, nofun, nofun⟩, next_of_nextOf (by decide)⟩,
    ⟨by decide, by decide, nofun, nofun⟩, next_of_nextOf (by decide)⟩

theorem witness_EveryStepKeepsTheProgramLength :
    (∃ t, step (start [0xA301]) = .next t) ∧ ∃ t, step State.reset = .next t :=
  ⟨next_of_nextOf (by decide), next_of_nextOf (by decide)⟩

/-- Instructions of one, two and three words. -/
theorem witness_DecodingAnEncodingGivesTheInstruction :
    encode (.jsr (.small 17)) <+: [0xC420, 1, 2] ∧
    encode (.set (.place (.reg 0)) (.literal 0x0030)) <+: [0x7C01, 0x0030, 2] ∧
    encode (.set (.place (.abs 0x1000)) (.literal 0x0020)) <+: [0x7FC1, 0x1000, 0x0020] := by decide

theorem witness_DecodedWordsAreTheEncoding :
    decode 0xC420 1 2 = .instr (.jsr (.small 17)) ∧
    decode 0x7C01 0x0030 2 = .instr (.set (.place (.reg 0)) (.literal 0x0030)) := by decide

/-- Each reserved range at its ends, the special codes beside 0x01, and reserved words with two extra
words and with one for a. -/
theorem witness_ReservedWordsAreExactlyTheListedOnes :
    decode 0x000D 0 0 = .invalid (.unknownOpcode 0x0D) (.place (.reg 0)) (.place (.reg 0)) ∧
    decode 0x0011 0 0 = .invalid (.unknownOpcode 0x11) (.place (.reg 0)) (.place (.reg 0)) ∧
    decode 0x0014 0 0 = .invalid (.unknownOpcode 0x14) (.place (.reg 0)) (.place (.reg 0)) ∧
    decode 0x001F 0 0 = .invalid (.unknownOpcode 0x1F) (.place (.reg 0)) (.place (.reg 0)) ∧
    decode 0x0000 0 0 = .invalid (.unknownSpecial 0x00) (.place (.reg 0)) (.place (.reg 0)) ∧
    decode 0x0040 0 0 = .invalid (.unknownSpecial 0x02) (.place (.reg 2)) (.place (.reg 0)) ∧
    decode 0x03E0 5 0 = .invalid (.unknownSpecial 0x1F) (.literal 5) (.place (.reg 0)) ∧
    decode 0x7E0F 5 6 = .invalid (.unknownOpcode 0x0F) (.place (.indDisp 0 5)) (.literal 6) ∧
    decode 0x7C0F 5 6 = .invalid (.unknownOpcode 0x0F) (.place (.reg 0)) (.literal 5) := by decide

/-- An instruction at PC = 0 and at PC = 0xFFFF, and a reserved word. -/
theorem witness_StepRunsTheDecodedInstruction :
    ((start [0xA301]).fetches ∧ (start [0xA301]).decoded = .instr (.set .push (.small 8))) ∧
    ((start [0x7C01, 0x0030] (·.setPc 0xFFFF)).fetches ∧
      (start [0x7C01, 0x0030] (·.setPc 0xFFFF)).decoded
        = .instr (.set (.place (.reg 0)) (.literal 0x0030))) ∧
    (start [0x000F]).fetches ∧ (start [0x000F]).decoded
      = .invalid (.unknownOpcode 0x0F) (.place (.reg 0)) (.place (.reg 0)) :=
  ⟨⟨⟨by decide, by decide⟩, by decide⟩, ⟨⟨by decide, by decide⟩, by decide⟩,
    ⟨by decide, by decide⟩, by decide⟩

/-- PC = N − 1, PC = N, and a step that faults. -/
theorem witness_RunLoopTestsPcBeforeEachStep :
    ((start [0xA301]).status = .running ∧ (start [0xA301]).pc.toNat + 1 = (start [0xA301]).programLength) ∧
    (State.reset.status = .running ∧ State.reset.programLength = State.reset.pc.toNat) ∧
    (start [0x000F]).status = .running ∧ ∃ f, step (start [0x000F]) = .fault f :=
  ⟨by decide, by decide, by decide, fault_of_faultOf (by decide)⟩

theorem witness_EndedRunTakesNoStep :
    (State.reset.setStatus .halted).status = .halted ∧ ∃ f, step (start [0x000F]) = .fault f :=
  ⟨by decide, fault_of_faultOf (by decide)⟩

/-- A run that halts at its first boundary, one that halts after a step, one that faults. -/
theorem witness_RunEndsHaltedExactlyAtABoundaryPastTheProgram :
    (State.reset.status = .running ∧ State.reset.programLength ≤ State.reset.pc.toNat) ∧
    ((start [0x8801]).status = .running ∧
      ((nextOf (core.run 2 (start [0x8801]))).map State.status) = some .halted) ∧
    (start [0x000F]).status = .running ∧ ∃ f, core.run 1 (start [0x000F]) = .fault f :=
  ⟨by decide, by decide, by decide, fault_of_faultOf (by decide)⟩

/-- A skipped PUSH, a skipped POP, a skipped reserved word with an extra word. -/
theorem witness_SkippedInstructionIsConsumedWithoutEffect :
    ((skipping [0xA301]).fetches ∧ (skipping [0xA301]).skip = true ∧
      (skipping [0xA301]).decoded.dst.writable = true) ∧
    ((skipping [0x6021]).fetches ∧ (skipping [0x6021]).skip = true ∧
      (skipping [0x6021]).decoded.dst.writable = true) ∧
    (skipping [0x7C1F, 0x1234]).fetches ∧ (skipping [0x7C1F, 0x1234]).skip = true ∧
      (skipping [0x7C1F, 0x1234]).decoded.dst.writable = true :=
  ⟨⟨⟨by decide, by decide⟩, by decide, by decide⟩, ⟨⟨by decide, by decide⟩, by decide, by decide⟩,
    ⟨by decide, by decide⟩, by decide, by decide⟩

/-- A skipped SET PC, an unskipped PUSH, and an IFE whose b operand is PC. -/
theorem witness_PcMovesPastTheWholeInstruction :
    ((skipping [0xC781]).fetches ∧ (∃ t, step (skipping [0xC781]) = .next t) ∧
      (skipping [0xC781]).skip = true) ∧
    ((start [0xA301]).fetches ∧ (∃ t, step (start [0xA301]) = .next t) ∧
      (start [0xA301]).decoded = .instr (.set .push (.small 8))) ∧
    (start [0x8792]).fetches ∧ (∃ t, step (start [0x8792]) = .next t) ∧
      (start [0x8792]).decoded = .instr (.ife (.place .pc) (.small 1)) :=
  ⟨⟨⟨by decide, by decide⟩, next_of_nextOf (by decide), by decide⟩,
    ⟨⟨by decide, by decide⟩, next_of_nextOf (by decide), by decide⟩,
    ⟨by decide, by decide⟩, next_of_nextOf (by decide), by decide⟩

/-- S1's IFE (A = 0, `IFE A, 1`) and V98's `IFN A, A` leave skip set. -/
theorem witness_OnlyAFailedConditionalSetsSkip :
    ((start [0x8812]).fetches ∧ after State.skip [0x8812] = some true) ∧
    (start [0x0013]).fetches ∧ after State.skip [0x0013] = some true :=
  ⟨⟨⟨by decide, by decide⟩, by decide⟩, ⟨by decide, by decide⟩, by decide⟩

/-- P5's first instruction, `SET [3], 0x8C01` at address 0, stores at the next address; `ADD PUSH, POP`
stores below SP; `MOD [3], 5` divides by a word that is not zero. -/
theorem witness_StoredWordIsFetchedNext :
    ((start [0x7FC1, 3, 0x8C01]).Inv ∧ (start [0x7FC1, 3, 0x8C01]).fetches ∧
      (start [0x7FC1, 3, 0x8C01]).skip = false ∧
      (start [0x7FC1, 3, 0x8C01]).decoded = .instr (.set (.place (.abs 3)) (.literal 0x8C01)) ∧
      (∃ u, resolveBoth (.place (.abs 3)) (.literal 0x8C01) ((start [0x7FC1, 3, 0x8C01]).setPc 1)
        = some (.mem 3, .value 0x8C01, u)) ∧
      (Instr.set (.place (.abs 3)) (.literal 0x8C01)).dividesOrFaults = none ∧
      (3 : Word) = (start [0x7FC1, 3, 0x8C01]).pc
        + BitVec.ofNat 16 (start [0x7FC1, 3, 0x8C01]).decoded.length) ∧
    ((start [0x6302]).Inv ∧ (start [0x6302]).fetches ∧ (start [0x6302]).skip = false ∧
      (start [0x6302]).decoded = .instr (.add .push .pop) ∧
      ∃ u, resolveBoth .push .pop ((start [0x6302]).setPc 1)
        = some (.mem 0xFFFE, .loc (.mem 0xFFFE), u)) ∧
    (start [0x9BC8, 3]).Inv ∧ (start [0x9BC8, 3]).fetches ∧ (start [0x9BC8, 3]).skip = false ∧
      (start [0x9BC8, 3]).decoded = .instr (.mod (.place (.abs 3)) (.small 6)) ∧
      ∃ u, resolveBoth (.place (.abs 3)) (.small 6) ((start [0x9BC8, 3]).setPc 1)
        = some (.mem 3, .value 5, u) ∧ u.val (.value 5) ≠ 0 :=
  ⟨⟨⟨by decide, by decide, nofun, nofun⟩, ⟨by decide, by decide⟩, by decide, by decide, ⟨_, rfl⟩, rfl,
      by decide⟩,
    ⟨⟨by decide, by decide, nofun, nofun⟩, ⟨by decide, by decide⟩, by decide, by decide, ⟨_, rfl⟩⟩,
    ⟨by decide, by decide, nofun, nofun⟩, ⟨by decide, by decide⟩, by decide, by decide,
    ⟨_, rfl, by decide⟩⟩

theorem witness_PlacedWordIsRunNext :
    State.reset.mem.wf ∧ decodeTableWord 16 0xC420 = some (.jsr (.small 17)) := by decide

/-- b = 0x1F, unskipped and skipped, in an instruction and in a reserved word; and b = 0x1E. -/
theorem witness_LiteralDestinationFaultsExactlyAtCode1F :
    ((start [0x9BE1]).fetches ∧ destinationField ((start [0x9BE1]).mem.read 0) = 0x1F#5) ∧
    ((skipping [0x9BE1]).fetches ∧ destinationField ((skipping [0x9BE1]).mem.read 0) = 0x1F#5) ∧
    ((start [0x03E0]).fetches ∧ destinationField ((start [0x03E0]).mem.read 0) = 0x1F#5) ∧
    (start [0x9BC1]).fetches ∧ destinationField ((start [0x9BC1]).mem.read 0) = 0x1E#5 :=
  ⟨⟨⟨by decide, by decide⟩, by decide⟩, ⟨⟨by decide, by decide⟩, by decide⟩,
    ⟨⟨by decide, by decide⟩, by decide⟩, ⟨by decide, by decide⟩, by decide⟩

/-- Opcodes 0x0D, 0x11, 0x14 and 0x1F, the ends of the reserved ranges. -/
theorem witness_UnknownOpcodeFaultsExactlyAtReservedOpcodes :
    ((start [0x000D]).fetches ∧ faults [0x000D] = some (.unknownOpcode 0x0D)) ∧
    ((start [0x0011]).fetches ∧ faults [0x0011] = some (.unknownOpcode 0x11)) ∧
    ((start [0x0014]).fetches ∧ faults [0x0014] = some (.unknownOpcode 0x14)) ∧
    (start [0x001F]).fetches ∧ faults [0x001F] = some (.unknownOpcode 0x1F) :=
  ⟨⟨⟨by decide, by decide⟩, by decide⟩, ⟨⟨by decide, by decide⟩, by decide⟩,
    ⟨⟨by decide, by decide⟩, by decide⟩, ⟨by decide, by decide⟩, by decide⟩

/-- Special codes 0x00, 0x02 and 0x1E, the neighbours of 0x01 and 0x1F. -/
theorem witness_UnknownSpecialFaultsExactlyAtOtherSpecialCodes :
    ((start [0x0000]).fetches ∧ faults [0x0000] = some (.unknownSpecial 0x00)) ∧
    ((start [0x0040]).fetches ∧ faults [0x0040] = some (.unknownSpecial 0x02)) ∧
    (start [0x03C0]).fetches ∧ faults [0x03C0] = some (.unknownSpecial 0x1E) :=
  ⟨⟨⟨by decide, by decide⟩, by decide⟩, ⟨⟨by decide, by decide⟩, by decide⟩,
    ⟨by decide, by decide⟩, by decide⟩

/-- A register that is zero as divisor. -/
theorem witness_RemainderByZeroFaults :
    State.reset.skip = false ∧
    resolveBoth (.place (.reg 0)) (.place (.reg 1)) State.reset
      = some (.reg 0, .loc (.reg 1), State.reset) ∧
    State.reset.val (.loc (.reg 1)) = 0 := by decide

/-- A skipped reserved word, an ADD, a MOD with S ≠ 0; and PC ≥ N. -/
theorem witness_NothingElseFaults :
    ((skipping [0x000F]).status = .running ∧ (skipping [0x000F]).pc.toNat < 1 ∧
      (skipping [0x000F]).decoded.dst.writable = true ∧ (skipping [0x000F]).skip = true) ∧
    ((start [0x8C02]).status = .running ∧ (start [0x8C02]).decoded.dst.writable = true ∧
      (start [0x8C02]).decoded = .instr (.add (.place (.reg 0)) (.small 3)) ∧
      (Instr.add (.place (.reg 0)) (.small 3)).dividesOrFaults = none) ∧
    ((start [0x9808]).status = .running ∧ (start [0x9808]).decoded.dst.writable = true ∧
      (start [0x9808]).decoded = .instr (.mod (.place (.reg 0)) (.small 6)) ∧
      ∀ ld ra u, resolveBoth (.place (.reg 0)) (.small 6) ((start [0x9808]).setPc 1)
        = some (ld, ra, u) → u.val ra ≠ 0) ∧
    State.reset.status = .running ∧ State.reset.programLength ≤ State.reset.pc.toNat := by
  refine ⟨by decide, by decide, ⟨by decide, by decide, by decide, ?_⟩, by decide⟩
  intro ld ra u h
  simp only [resolveBoth, resolveDst, resolveSrc, Option.some.injEq, Prod.mk.injEq] at h
  obtain ⟨-, rfl, rfl⟩ := h
  decide

/-- A fault of each kind, the second with an extra word and the third after a PUSH. -/
theorem witness_FaultAppliesNoSemantics :
    (∃ f, step (start [0x9BE1]) = .fault f) ∧ (∃ f, step (start [0x7C1F, 0x1234]) = .fault f) ∧
    (∃ f, step (start [0x0300]) = .fault f) ∧ ∃ f, step (start [0x8408]) = .fault f :=
  ⟨⟨_, rfl⟩, fault_of_faultOf (by decide), fault_of_faultOf (by decide), fault_of_faultOf (by decide)⟩

theorem witness_LiteralDestinationStopsEveryInstruction :
    (Instr.ife (.literal 5) (.small 6)).dst = .literal 5 ∧
    (Instr.set (.literal 5) (.small 6)).dst = .literal 5 := by decide

theorem witness_EveryOperandFormResolvesAsItsRuleSays : State.reset.skip = false := rfl

theorem witness_PushIsSeenByTheSourceOperand :
    State.reset.skip = false ∧ State.reset.mem.wf := by decide

/-- Operands that resolve, with no skip pending: two registers, and PUSH with POP. The hypotheses of
the statements of SET, ADD, MUL, MLI, DIV, DVI, of the bitwise and of the conditional instructions. -/
theorem witness_operands_resolve :
    State.reset.skip = false ∧
    resolveBoth (.place (.reg 0)) (.place (.reg 1)) State.reset
      = some (.reg 0, .loc (.reg 1), State.reset) ∧
    resolveBoth .push .pop State.reset = some (.mem 0xFFFE, .loc (.mem 0xFFFE), State.reset) := by decide

/-- A divisor of zero and one of three, for both clauses of DIV and DVI, and for MOD and MDI. -/
theorem witness_divisors :
    State.reset.skip = false ∧
    resolveBoth (.place (.reg 0)) (.small 4) State.reset
      = some (.reg 0, .value 3, State.reset) ∧ State.reset.val (.value 3) ≠ 0 ∧
    resolveBoth (.place (.reg 0)) (.small 1) State.reset
      = some (.reg 0, .value 0, State.reset) ∧ State.reset.val (.value 0) = 0 := by decide

theorem witness_SetWritesTheSource : State.reset.skip = false ∧
    resolveBoth .push .pop State.reset = some (.mem 0xFFFE, .loc (.mem 0xFFFE), State.reset) := by decide

/-- The carry's boundary: 0xFFFF + 0 and 0xFFFF + 1. -/
theorem witness_AddGivesSumAndCarry :
    (withAB 0xFFFF 0 State.reset).skip = false ∧ (withAB 0xFFFF 1 State.reset).skip = false ∧
    resolveBoth (.place (.reg 0)) (.place (.reg 1)) (withAB 0xFFFF 0 State.reset)
      = some (.reg 0, .loc (.reg 1), withAB 0xFFFF 0 State.reset) ∧
    resolveBoth (.place (.reg 0)) (.place (.reg 1)) (withAB 0xFFFF 1 State.reset)
      = some (.reg 0, .loc (.reg 1), withAB 0xFFFF 1 State.reset) := by decide

/-- The borrow's boundary: 0 − 0 and 0 − 1, in a register and in EX. -/
theorem witness_SubGivesDifferenceAndBorrow :
    State.reset.skip = false ∧ Dst.place (.reg 0) ≠ .place .pc ∧ Dst.place .ex ≠ .place .pc ∧
    resolveBoth (.place (.reg 0)) (.small 1) State.reset = some (.reg 0, .value 0, State.reset) ∧
    resolveBoth (.place .ex) (.small 2) State.reset = some (.ex, .value 1, State.reset) := by decide

/-- PC = 1 with S = 0 and S = 1, the two sides of the borrow. -/
theorem witness_SubFromPcTakesOneMore :
    (State.reset.setPc 1).skip = false ∧
    resolveBoth (.place .pc) (.small 1) (State.reset.setPc 1)
      = some (.pc, .value 0, State.reset.setPc 1) ∧
    resolveBoth (.place .pc) (.small 2) (State.reset.setPc 1)
      = some (.pc, .value 1, State.reset.setPc 1) := by decide

theorem witness_JsrJumpsWithoutPushing : State.reset.skip = false := rfl

/-- The state after the push, with PC elsewhere, is a state to return from. -/
theorem witness_ReturnUndoesTheCallPush :
    ∃ t, State.reset.mem.wf ∧ State.reset.skip = false ∧
      exec (.set .push (.literal 3)) State.reset = .next t ∧ (t.setPc 9).mem = t.mem ∧
      (t.setPc 9).sp = t.sp ∧ (t.setPc 9).skip = false :=
  ⟨_, by decide, by decide, rfl, rfl, rfl, rfl⟩

/-- AND to a memory word, run and skipped. -/
theorem witness_FrameOfTheWritersThatKeepEx :
    (Instr.and .push .pop).writesD = true ∧ (Instr.and .push .pop).writesEx = false ∧
    State.reset.mem.wf ∧ (State.reset.setSkip true).mem.wf ∧
    resolveBoth .push .pop State.reset = some (.mem 0xFFFE, .loc (.mem 0xFFFE), State.reset) ∧
    resolveBoth .push .pop (State.reset.setSkip true)
      = some (.mem 0xFFFE, .loc (.mem 0xFFFE), State.reset.setSkip true) ∧
    (∃ t, exec (.and .push .pop) State.reset = .next t) ∧
    ∃ t, exec (.and .push .pop) (State.reset.setSkip true) = .next t :=
  ⟨rfl, rfl, by decide, by decide, by decide, by decide, ⟨_, rfl⟩, ⟨_, rfl⟩⟩

/-- ADD to a memory word, run and skipped. -/
theorem witness_FrameOfTheWritersOfEx :
    (Instr.add .push .pop).writesD = true ∧ (Instr.add .push .pop).writesEx = true ∧
    State.reset.mem.wf ∧
    resolveBoth .push .pop State.reset = some (.mem 0xFFFE, .loc (.mem 0xFFFE), State.reset) ∧
    resolveBoth .push .pop (State.reset.setSkip true)
      = some (.mem 0xFFFE, .loc (.mem 0xFFFE), State.reset.setSkip true) ∧
    (∃ t, exec (.add .push .pop) State.reset = .next t) ∧
    (State.reset.setSkip true).skip = true ∧
    ∃ t, exec (.add .push .pop) (State.reset.setSkip true) = .next t :=
  ⟨rfl, rfl, by decide, by decide, by decide, ⟨_, rfl⟩, rfl, ⟨_, rfl⟩⟩

theorem witness_FrameOfTheInstructionsWithoutDestination :
    ((Instr.ifn .push .pop).writesD = false ∧ ∃ t, exec (.ifn .push .pop) State.reset = .next t) ∧
    (Instr.jsr .pop).writesD = false ∧ ∃ t, exec (.jsr .pop) State.reset = .next t :=
  ⟨⟨rfl, ⟨_, rfl⟩⟩, rfl, ⟨_, rfl⟩⟩

end Sys2Proof.Tests
end

section
/-! PROOFS. The loaded state (spec/10_state.md R34, R40): what `load` answers, what its memory and its
registers read as, and the statement that says R40 whole. -/

namespace Sys2Proof.Machine

/-- `load` accepts an image that fits the address space, and changes only memory and N of the reset
state. -/
theorem load_of_length_le {words : List Word} (hl : words.length ≤ 65536) :
    load words = some
      ((State.reset.setMem (Memory.writeWords [] 0 words)).setProgramLength words.length) :=
  if_pos hl

/-- Loaded memory, address by address: the image's words first, and zero after them (log 19). -/
theorem Memory.read_image {words : List Word} (hl : words.length ≤ 65536) {k : Nat} (hk : k < 65536) :
    (Memory.writeWords [] 0 words).read (BitVec.ofNat 16 k)
      = if h : k < words.length then words[k] else 0 := by
  have hread := Memory.read_writeWords Memory.nil_wf 0 hl hk
  simpa only [BitVec.ofNat_eq_ofNat, BitVec.zero_add, Memory.read_nil] using hread

/-- Every general register is 0 at reset. -/
@[simp] theorem State.reset_reg (i : Reg) : State.reset.reg i = 0 := by
  simp [State.reg, State.reset]

/-- Settles O1: the image is read back through `Memory.read_image`, and the registers are those of the
reset state, which `load` leaves as they are. -/
theorem loadPlacesImageAndClearsRegisters : Obligations.LoadPlacesImageAndClearsRegisters := by
  intro words hl
  refine ⟨_, load_of_length_le hl, ?image, rfl, rfl, ?registers, rfl⟩
  case image =>
    intro k hk
    have hread := Memory.read_image hl (Nat.lt_of_lt_of_le hk hl)
    rwa [dif_pos hk] at hread
  case registers =>
    intro i
    rw [State.setProgramLength_reg, State.setMem_reg, State.reset_reg]

end Sys2Proof.Machine
end

section
/-! PROOFS. The operand forms (spec/40_operands.md R92 to R105), seen through SET: what SET does once b is
resolved, SET of a register from each source, SET of a literal into each destination. -/

namespace Sys2Proof.Machine

/-- The small literals are −1 to 30 (R105): one less than the code's low five bits. -/
theorem smallLiteral_eq (k : BitVec 5) : smallLiteral k = k.setWidth 16 - 1 := by
  apply BitVec.eq_of_toNat_eq
  have := k.isLt
  simp only [smallLiteral, w16_toNat, BitVec.toNat_sub, BitVec.toNat_setWidth, BitVec.reduceToNat]
  omega

/-- SET with b resolved and no skip pending writes the source's word, read after resolution (R107). -/
theorem exec_set_of_resolved {b : Dst} {a : Src} {s t : State} {ld : Loc} {ra : Ref}
    (hs : s.skip = false) (h : resolveBoth b a s = some (ld, ra, t)) :
    exec (.set b a) s = .next (t.writeLoc ld (t.val ra)) := by
  rw [exec_eq_executeBasic (by simp)]
  exact executeBasic_of_ok (i := .set b a) (e := { result := some (t.val ra) }) hs h rfl

/-- SET into a register: resolving the register changes nothing, so what is written is the source's word
in the state its own resolution leaves. -/
theorem exec_set_reg {s : State} (hs : s.skip = false) (r : Reg) (a : Src) :
    exec (.set (.place (.reg r)) a) s
      = .next ((resolveSrc a s).2.setReg r ((resolveSrc a s).2.val (resolveSrc a s).1)) :=
  exec_set_of_resolved (ld := .reg r) hs rfl

/-- SET of a long literal into a shared form: PC moves past b's extra word, if it has one, and the
literal's, and the literal is written to b's location. -/
theorem exec_set_place_literal {s : State} (hs : s.skip = false) (p : Place) (v : Word) :
    exec (.set (.place p) (.literal v)) s
      = .next ((s.setPc (s.pc + BitVec.ofNat 16 (p.extra.length + 1))).writeLoc
          (resolvePlace p s).1 v) := by
  have h : resolveBoth (.place p) (.literal v) s
      = some ((resolvePlace p s).1, .value v, (resolvePlace p s).2.consumeExtra) := rfl
  rw [exec_set_of_resolved hs h, resolvePlace_state, BitVec.ofNat_add, ← BitVec.add_assoc]
  rfl

/-- Settles O29: each clause is one row of the resolver, read off by SET. A register takes the word of
each source form by `exec_set_reg`; a literal goes to each destination form by `exec_set_place_literal`,
and to PUSH, the form that only b has, by `exec_set_of_resolved`. -/
theorem everyOperandFormResolvesAsItsRuleSays :
    Obligations.EveryOperandFormResolvesAsItsRuleSays := by
  intro s r q n v k hs
  have source (a : Src) := exec_set_reg hs r a
  have dest (p : Place) := exec_set_place_literal hs p v
  refine ⟨⟨source (.place (.reg q)), source (.place (.ind q)), source (.place (.indDisp q n)),
    source .pop, source (.place .peek), source (.place (.pick n)), source (.place .sp),
    source (.place .pc), source (.place .ex), source (.place (.abs n)), source (.literal n),
    ?small⟩, dest (.reg q), dest (.ind q), dest (.indDisp q n), ?push, dest .peek, dest (.pick n),
    dest .sp, dest .pc, dest .ex, dest (.abs n)⟩
  case small =>
    rw [source (.small k), ← smallLiteral_eq]
    rfl
  case push => exact exec_set_of_resolved (ld := .mem (s.sp - 1)) (ra := .value v) hs rfl

end Sys2Proof.Machine
end

section
/-! PROOFS. The end of a run (spec/41_dispatch.md R131, R132): what a fault of a step records, that a step
below N goes on running, and where a run halts or faults. -/

namespace Sys2Proof.Machine

/-! ### Every fault of a step is raised at the fetched word -/

/-- Resolution faults only by raising, so `withOperands` does when its action does. -/
theorem withOperands_fault {w : Word} {b : Dst} {a : Src} {act : Loc → Ref → State → Result}
    {s : State} {f : Fault} (hact : ∀ ld ra t, act ld ra t = .fault f →
      ∃ reason u, raise reason (s.pc - 1) w u = .fault f)
    (h : withOperands w b a act s = .fault f) :
    ∃ reason u, raise reason (s.pc - 1) w u = .fault f := by
  rcases withOperands_cases w b a act s with ⟨-, hr⟩ | ⟨ld, ra, t, -, ⟨-, hr⟩ | ⟨-, hr⟩⟩
  · exact ⟨_, _, hr.symm.trans h⟩
  · cases hr.symm.trans h
  · exact hact ld ra t (hr.symm.trans h)

/-- An instruction faults only by raising, with its own word. -/
theorem exec_fault {i : Instr} {s : State} {f : Fault} (h : exec i s = .fault f) :
    ∃ reason u, raise reason (s.pc - 1) i.word u = .fault f := by
  by_cases hj : ∃ a, i = .jsr a
  · obtain ⟨a, rfl⟩ := hj
    exact withOperands_fault (b := (Instr.jsr a).dst) (a := a)
      (act := fun _ ra t => .next (t.setPc (t.val ra))) (fun _ _ _ hn => by cases hn) h
  · rw [exec_eq_executeBasic (fun a e => hj ⟨a, e⟩)] at h
    refine withOperands_fault (fun ld ra t ht => ?_) h
    cases he : semanticsOf i (t.readLoc ld) (t.val ra) with
    | ok e => simp [he] at ht
    | error reason => exact ⟨reason, t, by simpa [he] using ht⟩

/-- An invalid word faults only by raising, with the word. -/
theorem execInvalid_fault {why : Invalid} {w : Word} {b : Dst} {a : Src} {s : State} {f : Fault}
    (h : execInvalid why w b a s = .fault f) :
    ∃ reason u, raise reason (s.pc - 1) w u = .fault f :=
  withOperands_fault (fun _ _ t ht => ⟨invalidReason why, t, ht⟩) h

/-- The dispatcher's step faults only by raising, at the address of the fetched word. -/
theorem dispatcherStep_fault {s : State} {f : Fault} (h : dispatcherStep s = .fault f) :
    ∃ word reason u, raise reason s.pc word u = .fault f := by
  have hpc : (s.setPc (s.pc + 1)).pc - 1 = s.pc := by simp
  rw [dispatcherStep_eq] at h
  rw [← hpc]
  cases hd : s.decoded with
  | instr i =>
    rw [hd] at h
    exact ⟨i.word, exec_fault h⟩
  | invalid why b a =>
    rw [hd] at h
    exact ⟨s.mem.read s.pc, execInvalid_fault h⟩

/-! ### The status after a step -/

/-- A raised fault's final state records its reason, the address and the word. -/
theorem status_of_raise {reason : FaultReason} {address word : Word} {s : State} {f : Fault}
    (h : raise reason address word s = .fault f) :
    f.final.status = .faulted f.reason address word := by
  obtain ⟨f', hr, hreason, hfinal⟩ := raise_cases reason address word s
  obtain rfl : f' = f := by simpa using hr.symm.trans h
  rw [hfinal, hreason, State.setStatus_status]

/-- A step that faults records the fault's reason and the address of the fetched word. -/
theorem step_fault_status {s : State} {f : Fault} (h : step s = .fault f) :
    ∃ word, f.final.status = .faulted f.reason s.pc word := by
  rcases step_cases s with ⟨-, -, hs⟩ | ⟨-, -, hs⟩ | ⟨-, hs⟩
  · obtain ⟨word, reason, u, hr⟩ := dispatcherStep_fault (hs.symm.trans h)
    exact ⟨word, status_of_raise hr⟩
  · cases hs.symm.trans h
  · cases hs.symm.trans h

/-- The dispatcher's step that goes on keeps the status: only the run loop halts. -/
theorem dispatcherStep_next_status {s t : State} (h : dispatcherStep s = .next t) :
    t.status = s.status := by
  obtain ⟨ld, ra, u, hb, hcases⟩ := dispatcherStep_next h
  have hu : u.status = s.status := by rw [resolveBoth_state hb]; rfl
  rcases hcases with ⟨-, rfl⟩ | ⟨-, i, e, -, -, -, rfl⟩ | ⟨-, a, -, rfl⟩
  · exact hu
  · exact (State.applyEffect_status u ld e).trans hu
  · exact hu

/-- A running step below N is the dispatcher's. -/
theorem step_of_pc_lt_length {s : State} (hs : s.status = .running)
    (hp : s.pc.toNat < s.programLength) : step s = dispatcherStep s := by
  rcases step_cases s with ⟨-, -, h⟩ | ⟨-, hle, -⟩ | ⟨hn, -⟩
  · exact h
  · exact absurd hp (Nat.not_lt.2 hle)
  · exact absurd hs hn

/-- A running step at or past N halts. -/
theorem step_of_length_le_pc {s : State} (hs : s.status = .running)
    (hp : s.programLength ≤ s.pc.toNat) : step s = .next (s.setStatus .halted) := by
  rcases step_cases s with ⟨-, hlt, -⟩ | ⟨-, -, h⟩ | ⟨hn, -⟩
  · exact absurd hlt (Nat.not_lt.2 hp)
  · exact h
  · exact absurd hs hn

/-- Settles O14: the two sides of the test are the two turns of a running state, and a fault's status
is what raising it recorded. -/
theorem runLoopTestsPcBeforeEachStep : Obligations.RunLoopTestsPcBeforeEachStep := fun s hs =>
  ⟨step_of_pc_lt_length hs, step_of_length_le_pc hs, fun _ h => ⟨s.pc, step_fault_status h⟩⟩

/-! ### Where a run ends -/

/-- A run of one step more goes on exactly when its first step does and the rest does from there. -/
theorem core_run_succ_eq_next {k : Nat} {s t : State} :
    core.run (k + 1) s = .next t ↔ ∃ u, step s = .next u ∧ core.run k u = .next t := by
  rw [core_run_succ]
  cases step s <;> simp

/-- One more step of a run that goes on is the step of the state it reached. -/
theorem core_run_succ_last_of_next {k : Nat} {s u : State} (h : core.run k s = .next u) :
    core.run (k + 1) s = step u := by rw [core_run_succ_last, h]

/-- A run from a running state to a halted one passes a running state with PC at or past N: every step
below N leaves the status running. -/
theorem exists_boundary_of_run_halted {k : Nat} {s t : State} (hs : s.status = .running)
    (h : core.run k s = .next t) (ht : t.status = .halted) :
    ∃ k' u, core.run k' s = .next u ∧ State.status u = .running ∧
      State.programLength u ≤ (State.pc u).toNat := by
  induction k generalizing s with
  | zero =>
    obtain rfl : s = t := by injection h
    rw [hs] at ht
    cases ht
  | succ k ih =>
    obtain ⟨s', hstep, hrun⟩ := core_run_succ_eq_next.1 h
    by_cases hp : s.programLength ≤ s.pc.toNat
    · exact ⟨0, s, rfl, hs, hp⟩
    · have hd : dispatcherStep s = .next s' :=
        (step_of_pc_lt_length hs (Nat.lt_of_not_le hp)).symm.trans hstep
      obtain ⟨k', u, hrun', hu⟩ := ih ((dispatcherStep_next_status hd).trans hs) hrun
      exact ⟨k' + 1, u, core_run_succ_eq_next.2 ⟨s', hstep, hrun'⟩, hu⟩

/-- A run that faults reaches a state whose step faults. -/
theorem exists_faulting_step_of_run_fault {k : Nat} {s : State} {f : Fault}
    (h : core.run k s = .fault f) : ∃ k' u, core.run k' s = .next u ∧ step u = .fault f := by
  induction k with
  | zero => cases h
  | succ k ih =>
    cases hr : core.run k s with
    | next u => exact ⟨k, u, hr, (core_run_succ_last_of_next hr).symm.trans h⟩
    | fault g =>
      rw [core_run_succ_last, hr] at h
      exact ih (hr.trans h)
    | refused r =>
      rw [core_run_succ_last, hr] at h
      cases h

/-- Settles O16: forwards by induction on the run, backwards by one more step from the state reached. -/
theorem runEndsHaltedExactlyAtABoundaryPastTheProgram :
    Obligations.RunEndsHaltedExactlyAtABoundaryPastTheProgram := by
  intro s hs
  refine ⟨⟨?halted, ?boundary⟩, ?fault, ?step⟩
  case halted =>
    rintro ⟨k, t, hrun, ht⟩
    exact exists_boundary_of_run_halted hs hrun ht
  case boundary =>
    rintro ⟨k, u, hrun, hu, hp⟩
    exact ⟨k + 1, _, (core_run_succ_last_of_next hrun).trans (step_of_length_le_pc hu hp), rfl⟩
  case fault =>
    rintro ⟨k, f, hrun⟩
    obtain ⟨k', u, hrun', hstep⟩ := exists_faulting_step_of_run_fault hrun
    exact ⟨k', u, f, hrun', hstep⟩
  case step =>
    rintro ⟨k, u, f, hrun, hstep⟩
    exact ⟨k + 1, f, (core_run_succ_last_of_next hrun).trans hstep⟩

end Sys2Proof.Machine
end

section
/-! PROOFS. Nothing else faults (spec/60_exceptions.md R226): what an unskipped instruction with resolved
operands answers, that a writable b with a pending skip goes on, and that no running step is refused. -/

namespace Sys2Proof.Machine

/-- JSR with a resolved and no skip pending jumps to the source's word. -/
theorem exec_jsr_of_resolved {a : Src} {s t : State} {ld : Loc} {ra : Ref} (hs : s.skip = false)
    (h : resolveBoth (Instr.jsr a).dst a s = some (ld, ra, t)) :
    exec (.jsr a) s = .next (t.setPc (t.val ra)) := by
  change execJsr a s = _
  unfold execJsr
  rw [withOperands_of_resolved hs h]

/-- Everything an unskipped instruction with resolved operands answers: it goes on, or it is MOD or MDI
with S = 0 and raises that. -/
theorem exec_of_resolved {i : Instr} {s t : State} {ld : Loc} {ra : Ref} (hs : s.skip = false)
    (h : resolveBoth i.dst i.src s = some (ld, ra, t)) :
    (∃ u, exec i s = .next u) ∨
    (t.val ra = 0 ∧ ∃ op, i.dividesOrFaults = some op ∧
      exec i s = raise (.divideByZero op) (s.pc - 1) i.word t) := by
  by_cases hj : ∃ a, i = .jsr a
  · obtain ⟨a, rfl⟩ := hj
    exact .inl ⟨_, exec_jsr_of_resolved hs h⟩
  · rw [exec_eq_executeBasic (fun a e => hj ⟨a, e⟩)]
    cases he : semanticsOf i (t.readLoc ld) (t.val ra) with
    | ok e => exact .inl ⟨_, executeBasic_of_ok hs h he⟩
    | error r =>
      obtain ⟨hz, op, hop, rfl⟩ := semanticsOf_error he
      exact .inr ⟨hz, op, hop, executeBasic_of_error hs h he⟩

/-- An unskipped instruction with a writable b goes on, if it is neither MOD nor MDI or its S, read after
resolution, is not 0. -/
theorem exec_next {i : Instr} {s : State} (hs : s.skip = false) (hw : i.dst.writable = true)
    (hz : i.dividesOrFaults = none ∨
      ∀ ld ra t, resolveBoth i.dst i.src s = some (ld, ra, t) → t.val ra ≠ 0) :
    ∃ u, exec i s = .next u := by
  obtain ⟨ld, ra, t, hb⟩ := resolveBoth_isSome hw i.src s
  rcases exec_of_resolved hs hb with hn | ⟨h0, op, hop, -⟩
  · exact hn
  · rcases hz with hnone | hne
    · cases hnone.symm.trans hop
    · exact absurd h0 (hne ld ra t hb)

/-- With a skip pending and a writable b, what stands at PC is consumed, valid or not. -/
theorem dispatcherStep_next_of_skip {s : State} (hs : s.skip = true)
    (hw : s.decoded.dst.writable = true) : ∃ t, dispatcherStep s = .next t := by
  obtain ⟨w, act, h⟩ := dispatcherStep_eq_withOperands s
  obtain ⟨ld, ra, t, hb⟩ := resolveBoth_isSome hw s.decoded.src (s.setPc (s.pc + 1))
  exact ⟨_, h.trans (withOperands_of_skip hs hb)⟩

/-! ### No refusal -/

/-- Resolution and the skip test refuse nothing, so `withOperands` refuses only what its action does on
the resolved operands of an unskipped word. -/
theorem withOperands_refused {w : Word} {b : Dst} {a : Src} {act : Loc → Ref → State → Result}
    {s : State} {r : Refusal} (h : withOperands w b a act s = .refused r) :
    s.skip = false ∧ ∃ ld ra t, resolveBoth b a s = some (ld, ra, t) ∧ act ld ra t = .refused r := by
  rcases withOperands_cases w b a act s with ⟨-, hr⟩ | ⟨ld, ra, t, hb, ⟨-, hr⟩ | ⟨hs, hr⟩⟩
  · exact absurd (hr.symm.trans h) raise_ne_refused
  · cases hr.symm.trans h
  · exact ⟨hs, ld, ra, t, hb, hr.symm.trans h⟩

theorem exec_ne_refused {i : Instr} {s : State} {r : Refusal} : exec i s ≠ .refused r := by
  intro h
  obtain ⟨act, hact⟩ := exec_eq_withOperands i s
  obtain ⟨hs, ld, ra, t, hb, -⟩ := withOperands_refused (hact.symm.trans h)
  rcases exec_of_resolved hs hb with ⟨u, hu⟩ | ⟨-, op, -, hu⟩
  · cases hu.symm.trans h
  · exact raise_ne_refused (hu.symm.trans h)

theorem execInvalid_ne_refused {why : Invalid} {w : Word} {b : Dst} {a : Src} {s : State}
    {r : Refusal} : execInvalid why w b a s ≠ .refused r := by
  intro h
  obtain ⟨-, ld, ra, t, -, hr⟩ := withOperands_refused h
  exact raise_ne_refused hr

/-- Only the run loop refuses a step, after the end of the run. -/
theorem dispatcherStep_ne_refused {s : State} {r : Refusal} : dispatcherStep s ≠ .refused r := by
  rw [dispatcherStep_eq]
  cases s.decoded with
  | instr i => exact exec_ne_refused
  | invalid why b a => exact execInvalid_ne_refused

/-- Settles O26: at or past N the step halts; below N the dispatcher's step consumes a skipped word, or
runs an instruction with nothing to fault on, and never refuses. -/
theorem nothingElseFaults : Obligations.NothingElseFaults := by
  intro s hs
  by_cases hp : s.pc.toNat < s.programLength
  · rw [step_of_pc_lt_length hs hp]
    refine ⟨fun h => ?_, fun r => dispatcherStep_ne_refused⟩
    obtain ⟨hw, hcases⟩ := h hp
    cases hk : s.skip with
    | true => exact dispatcherStep_next_of_skip hk hw
    | false =>
      obtain ⟨i, hd, hz⟩ := hcases.resolve_left (by simp [hk])
      rw [hd] at hw
      rw [dispatcherStep_eq, hd]
      exact exec_next hk hw hz
  · rw [step_of_length_le_pc hs (Nat.le_of_not_lt hp)]
    exact ⟨fun _ => ⟨_, rfl⟩, fun r h => by cases h⟩

end Sys2Proof.Machine
end

section
/-! PROOFS. Encoding (spec/30_encoding.md): decoding and encoding undo one another, the reserved words,
and how many words a code takes. -/

namespace Sys2Proof

/-! ### From an instruction to its words and back -/

/-- A list of at most one word is any word of it. -/
theorem eq_singleton_of_mem {ws : List Word} {n : Word} (hl : ws.length ≤ 1) (h : n ∈ ws) :
    ws = [n] := by
  obtain ⟨m, rfl⟩ := List.length_eq_one_iff.1 (Nat.le_antisymm hl (List.length_pos_of_mem h))
  rw [List.mem_singleton.1 h]

/-- The words after an instruction word that begin with two operands' extra words give those operands
back from their codes: b's extra word is the first, and a's the one after b's (R72). -/
theorem decode_operand_codes {b : Dst} {a : Src} {e₁ e₂ : Word}
    (h : b.extra ++ a.extra <+: [e₁, e₂]) :
    decodeDst b.code e₁ = b ∧
      decodeSrc a.code (if takesExtra (b.code.setWidth 6) then e₂ else e₁) = a := by
  have hb {n : Word} (hn : n ∈ b.extra) : b.extra = [n] :=
    eq_singleton_of_mem (Laws.EncodeLength.dst_extra_le b) hn
  have ha {n : Word} (hn : n ∈ a.extra) : a.extra = [n] :=
    eq_singleton_of_mem (Laws.EncodeLength.src_extra_le a) hn
  rw [takesExtra_dst]
  cases hx : b.extra with
  | nil =>
    rw [hx, List.nil_append] at h
    refine ⟨decodeDst_code b e₁ (by simp [hx]), decodeSrc_code a e₁ fun n hn => ?_⟩
    rw [ha hn] at h
    exact (List.cons_prefix_cons.1 h).1
  | cons m ms =>
    rw [hb (n := m) (by simp [hx]), List.singleton_append] at h
    obtain ⟨rfl, htail⟩ := List.cons_prefix_cons.1 h
    refine ⟨decodeDst_code b m fun n hn => ?_, decodeSrc_code a e₂ fun n hn => ?_⟩
    · rw [hb hn] at hx
      exact (List.cons.inj hx).1
    · rw [ha hn] at htail
      exact (List.cons_prefix_cons.1 htail).1

/-- A basic instruction's opcode is that of no special word, and gives the instruction from its
operands. -/
theorem basicOfOpcode_opcode {i : Instr} (h : ∀ a, i ≠ .jsr a) :
    i.opcode ≠ 0x00#5 ∧ basicOfOpcode i.opcode i.dst i.src = some i := by
  cases i with
  | jsr a => exact absurd rfl (h a)
  | _ => exact ⟨by simp [Instr.opcode], rfl⟩

/-- What a basic opcode gives has that opcode and is no JSR. -/
theorem opcode_of_basicOfOpcode {o : BitVec 5} {b : Dst} {a : Src} {i : Instr}
    (h : basicOfOpcode o b a = some i) : i.opcode = o := by
  unfold basicOfOpcode at h
  split at h <;> cases h <;> rfl

/-- The opcode of the instruction a word decodes to is the word's opcode field. -/
theorem opcode_of_decode {w e₁ e₂ : Word} {i : Instr} (h : decode w e₁ e₂ = .instr i) :
    i.opcode = opcodeField w := by
  simp only [decode] at h
  split at h
  · rename_i ho
    split at h
    · obtain rfl := Decoded.instr.inj h
      exact ho.symm
    · cases h
  · split at h
    · rename_i j hj
      obtain rfl := Decoded.instr.inj h
      exact opcode_of_basicOfOpcode hj
    · cases h

/-- The word an instruction was decoded from is the instruction's word. -/
theorem word_of_decode {w e₁ e₂ : Word} {i : Instr} (h : decode w e₁ e₂ = .instr i) : i.word = w := by
  obtain ⟨hb, ha, -⟩ := decode_operands w e₁ e₂
  rw [h, Decoded.dst] at hb
  rw [h, Decoded.src] at ha
  rw [Instr.word, opcode_of_decode h, hb, ha, instructionWord_fields]

/-- Settles O9: the fields of the instruction's word are its opcode and its operands' codes, and those
give the instruction back. -/
theorem decodingAnEncodingGivesTheInstruction :
    Obligations.DecodingAnEncodingGivesTheInstruction := by
  intro i w e₁ e₂ h
  obtain ⟨rfl, hextra⟩ := List.cons_prefix_cons.1 h
  obtain ⟨hb, ha⟩ := decode_operand_codes hextra
  simp only [decode, Instr.word, opcodeField_instructionWord, destinationField_instructionWord,
    sourceField_instructionWord, hb, ha]
  by_cases hj : ∃ a, i = .jsr a
  · obtain ⟨a, rfl⟩ := hj
    rfl
  · obtain ⟨ho, hi⟩ := basicOfOpcode_opcode fun a e => hj ⟨a, e⟩
    rw [if_neg ho, hi]

/-- Settles O10: the word is the instruction's by its fields, and the extra words are its operands'. -/
theorem decodedWordsAreTheEncoding : Obligations.DecodedWordsAreTheEncoding := by
  intro i w e₁ e₂ h
  obtain ⟨-, -, hextra⟩ := decode_operands w e₁ e₂
  rw [h] at hextra
  exact List.cons_prefix_cons.2 ⟨word_of_decode h, hextra⟩

/-! ### Reserved words (R78, R80) -/

/-- The opcodes without a basic instruction: the special family's, and the reserved ranges. -/
theorem basicOfOpcode_eq_none {o : BitVec 5} {b : Dst} {a : Src} :
    basicOfOpcode o b a = none ↔
      o = 0x00#5 ∨ (0x0D ≤ o.toNat ∧ o.toNat ≤ 0x11) ∨ 0x14 ≤ o.toNat := by
  have key : ∀ o : BitVec 5, (basicOfOpcode o .push .pop).isNone = true ↔
      o = 0x00#5 ∨ (0x0D ≤ o.toNat ∧ o.toNat ≤ 0x11) ∨ 0x14 ≤ o.toNat := by decide
  rw [← key, Option.isNone_iff_eq_none]
  unfold basicOfOpcode
  split <;> simp

/-- A word is an unknown opcode exactly when its opcode is in a reserved range. -/
theorem decode_unknownOpcode_iff {w e₁ e₂ : Word} {o : BitVec 5} :
    (∃ b a, decode w e₁ e₂ = .invalid (.unknownOpcode o) b a) ↔
      opcodeField w = o ∧ ((0x0D ≤ o.toNat ∧ o.toNat ≤ 0x11) ∨ 0x14 ≤ o.toNat) := by
  constructor
  · rintro ⟨b, a, h⟩
    simp only [decode] at h
    split at h
    · split at h <;> cases h
    · rename_i ho
      split at h
      · cases h
      · rename_i hnone
        cases h
        exact ⟨rfl, (basicOfOpcode_eq_none.1 hnone).resolve_left ho⟩
  · rintro ⟨rfl, hr⟩
    have ho : opcodeField w ≠ 0x00#5 := fun h => by simp [h] at hr
    simp [decode, ho, basicOfOpcode_eq_none.2 (.inr hr)]

/-- A word is an unknown special exactly when its opcode is 0 and its special code is not JSR's. -/
theorem decode_unknownSpecial_iff {w e₁ e₂ : Word} {c : BitVec 5} :
    (∃ b a, decode w e₁ e₂ = .invalid (.unknownSpecial c) b a) ↔
      opcodeField w = 0x00#5 ∧ destinationField w = c ∧ c ≠ 0x01#5 := by
  constructor
  · rintro ⟨b, a, h⟩
    simp only [decode] at h
    split at h
    · rename_i ho
      split at h
      · cases h
      · rename_i hc
        cases h
        exact ⟨ho, rfl, hc⟩
    · split at h <;> cases h
  · rintro ⟨ho, rfl, hc⟩
    simp [decode, ho, show destinationField w ≠ jsrCode from hc]

/-- Settles O11: the two kinds of invalid words by their fields, and the operands that every word keeps. -/
theorem reservedWordsAreExactlyTheListedOnes :
    Obligations.ReservedWordsAreExactlyTheListedOnes := by
  intro w e₁ e₂
  refine ⟨decode_unknownOpcode_iff.trans (and_iff_right rfl),
    decode_unknownSpecial_iff.trans (and_congr_right fun _ => and_iff_right rfl),
    fun why b a h => ⟨?_, ?_⟩⟩
  · obtain ⟨-, -, rfl⟩ := decode_invalid h
    split
    · exact .inr rfl
    · exact .inl rfl
  · have hops := decode_operands w e₁ e₂
    rwa [h] at hops

/-- Settles O12: each word is decoded. -/
theorem writtenOutWordsDecode : Obligations.WrittenOutWordsDecode := by
  unfold Obligations.WrittenOutWordsDecode
  decide

/-! ### Length (R74, R76) -/

/-- A shared form's code tells how many extra words it has. -/
theorem place_extra_length (p : Place) : p.extra.length = extraWordsOfCode p.code.toNat := by
  have register : ∀ r : Reg, extraWordsOfCode (registerCode 0x00#5 r).toNat = 0 ∧
      extraWordsOfCode (registerCode 0x08#5 r).toNat = 0 ∧
      extraWordsOfCode (registerCode 0x10#5 r).toNat = 1 := by decide
  cases p with
  | reg r => exact (register r).1.symm
  | ind r => exact (register r).2.1.symm
  | indDisp r n => exact (register r).2.2.symm
  | peek | pick | sp | pc | ex | abs => rfl

/-- A b operand's code tells how many extra words it has. -/
theorem dst_extra_length (b : Dst) : b.extra.length = extraWordsOfCode b.code.toNat := by
  cases b with
  | place p => exact place_extra_length p
  | push | literal => rfl

/-- An a operand's code tells how many extra words it has. -/
theorem src_extra_length (a : Src) : a.extra.length = extraWordsOfCode a.code.toNat := by
  cases a with
  | place p =>
    rw [Src.code, BitVec.toNat_setWidth_of_le (by decide)]
    exact place_extra_length p
  | pop | literal => rfl
  | small k =>
    have small : ∀ k : BitVec 5, extraWordsOfCode (0x20#6 + k.setWidth 6).toNat = 0 := by decide
    exact (small k).symm

/-- Settles O48: the operands' codes are the word's fields. -/
theorem lengthIsToldByTheOperandCodes : Obligations.LengthIsToldByTheOperandCodes := by
  intro w e₁ e₂
  obtain ⟨hb, ha, -⟩ := decode_operands w e₁ e₂
  rw [Decoded.length, dst_extra_length, src_extra_length, hb, ha]

end Sys2Proof
end

section
/-! PROOFS. What `load` and the file reader leave besides the image, and the invariant: at reset, after a
load, and kept by every step. -/

namespace Sys2Proof.Machine

/-! ### Loading and program files -/

/-- What `load` answers, it answers for an image that fits the address space. -/
theorem load_eq_some {words : List Word} {s : State} (h : load words = some s) :
    words.length ≤ 65536 ∧
      s = (State.reset.setMem (Memory.writeWords [] 0 words)).setProgramLength words.length := by
  by_cases hl : words.length ≤ 65536
  · exact ⟨hl, Option.some.inj (h.symm.trans (load_of_length_le hl))⟩
  · rw [load, if_neg hl] at h
    cases h

/-- Settles O2: `Memory.read_image` past the image, and the fields that `load` leaves or sets. -/
theorem loadLeavesTheRestAsDecided : Obligations.LoadLeavesTheRestAsDecided := by
  refine ⟨fun words s h => ?_, fun words h => if_neg (Nat.not_le.2 h)⟩
  obtain ⟨hl, rfl⟩ := load_eq_some h
  refine ⟨fun k hk hlt => ?_, rfl, rfl, rfl⟩
  exact (Memory.read_image hl hlt).trans (dif_neg (Nat.not_lt.2 hk))

/-- Settles O3: both sides are the same state. -/
theorem resetIsTheEmptyLoad : Obligations.ResetIsTheEmptyLoad :=
  load_of_length_le (words := []) (by decide)

/-- Words written low byte first are read back, word by word (R52). -/
theorem fileWords_flatMap (words : List Word) :
    fileWords (words.flatMap fun w => [w.extractLsb' 0 8, w.extractLsb' 8 8]) = some words := by
  induction words with
  | nil => rfl
  | cons w ws ih =>
    simp only [List.flatMap_cons, List.cons_append, List.nil_append, fileWords, ih]
    rw [Memory.high_append_low]

/-- A file of odd length is refused: taking two bytes off leaves it odd, down to the single byte. -/
theorem fileWords_of_odd : ∀ bytes : List Byte, bytes.length % 2 = 1 → fileWords bytes = none
  | [], h => by cases h
  | [_], _ => rfl
  | _ :: _ :: rest, h => by
    have hrest : rest.length % 2 = 1 := by
      simp only [List.length_cons] at h
      omega
    rw [fileWords, fileWords_of_odd rest hrest]

/-- Settles O4: the two lemmas on `fileWords`. -/
theorem fileBytesAreLittleEndianWords : Obligations.FileBytesAreLittleEndianWords :=
  ⟨fileWords_flatMap, fileWords_of_odd⟩

/-! ### The invariant -/

/-- A running state with canonical memory and N at most 65536 meets the invariant. -/
theorem State.inv_of_running {s : State} (hm : s.mem.wf) (hN : s.programLength ≤ 65536)
    (hs : s.status = .running) : s.Inv where
  mem_wf := hm
  length_le := hN
  halted_pc h := by cases hs.symm.trans h
  not_faulted _ _ _ h := by cases hs.symm.trans h

/-- Settles O5: reset is running, with nothing in memory and N = 0. -/
theorem invariantHoldsAtReset : Obligations.InvariantHoldsAtReset :=
  State.inv_of_running reset_mem_wf (Nat.zero_le _) rfl

/-- Settles O6: the image is written to canonical memory. -/
theorem invariantHoldsAfterLoad : Obligations.InvariantHoldsAfterLoad := by
  intro words s h
  obtain ⟨hl, rfl⟩ := load_eq_some h
  exact State.inv_of_running (Memory.writeWords_wf Memory.nil_wf 0 words) hl rfl

/-- A dispatcher's step that goes on keeps N and the canonical form of memory. -/
theorem dispatcherStep_next_keeps {s t : State} (h : dispatcherStep s = .next t) :
    t.programLength = s.programLength ∧ (s.mem.wf → t.mem.wf) := by
  obtain ⟨ld, ra, u, hb, hcases⟩ := dispatcherStep_next h
  have hN : u.programLength = s.programLength := by rw [resolveBoth_state hb]; rfl
  have hmem : u.mem = s.mem := by rw [resolveBoth_state hb]; rfl
  rw [← hmem, ← hN]
  rcases hcases with ⟨-, rfl⟩ | ⟨-, i, e, -, -, -, rfl⟩ | ⟨-, a, -, rfl⟩
  · exact ⟨rfl, id⟩
  · exact ⟨State.applyEffect_programLength u ld e, State.applyEffect_wf u ld e⟩
  · exact ⟨rfl, id⟩

/-- Every step that goes on is the dispatcher's, from a running state, or the halt at PC ≥ N. -/
theorem step_next_cases {s t : State} (h : step s = .next t) :
    (s.status = .running ∧ dispatcherStep s = .next t) ∨
      (s.programLength ≤ s.pc.toNat ∧ t = s.setStatus .halted) := by
  rcases step_cases s with ⟨hr, -, hs⟩ | ⟨-, hp, hs⟩ | ⟨-, hs⟩
  · exact .inl ⟨hr, hs.symm.trans h⟩
  · cases hs.symm.trans h
    exact .inr ⟨hp, rfl⟩
  · cases hs.symm.trans h

/-- Settles O8: neither the dispatcher's step nor the halt writes N. -/
theorem everyStepKeepsTheProgramLength : Obligations.EveryStepKeepsTheProgramLength := by
  intro s t h
  rcases step_next_cases h with ⟨-, hd⟩ | ⟨-, rfl⟩
  · exact (dispatcherStep_next_keeps hd).1
  · rfl

/-- Settles O7: the dispatcher's step leaves a running state running, and the halt is taken at PC ≥ N. -/
theorem everyStepKeepsTheInvariant : Obligations.EveryStepKeepsTheInvariant := by
  intro s t hinv h
  rcases step_next_cases h with ⟨hr, hd⟩ | ⟨hp, rfl⟩
  · obtain ⟨hN, hwf⟩ := dispatcherStep_next_keeps hd
    exact State.inv_of_running (hwf hinv.mem_wf) (hN ▸ hinv.length_le)
      ((dispatcherStep_next_status hd).trans hr)
  · exact ⟨hinv.mem_wf, hinv.length_le, fun _ => hp, fun _ _ _ hf => by cases hf⟩

end Sys2Proof.Machine
end

section
/-! PROOFS. The fetching step (spec/41_dispatch.md): what it runs, what a skipped word leaves, where PC
goes, what sets skip, and that a stored or placed word is the one fetched. -/

namespace Sys2Proof.Machine

/-! ### What a step runs -/

/-- A fetching step is the dispatcher's. -/
theorem step_of_fetches {s : State} (h : s.fetches) : step s = dispatcherStep s :=
  step_of_pc_lt_length h.1 h.2

/-- A step that fetches an instruction executes it past its word. -/
theorem step_of_decoded_instr {s : State} {i : Instr} (h : s.fetches) (hd : s.decoded = .instr i) :
    step s = exec i (s.setPc (s.pc + 1)) := by
  rw [step_of_fetches h, dispatcherStep_eq, hd]

/-- Settles O13: both kinds of word are read off `dispatcherStep_eq`. -/
theorem stepRunsTheDecodedInstruction : Obligations.StepRunsTheDecodedInstruction := by
  refine fun s h => ⟨fun i => step_of_decoded_instr h, fun why b a hd => ?_⟩
  rw [step_of_fetches h, dispatcherStep_eq, hd]

/-- No step is taken when the status is not running. -/
theorem step_of_not_running {s : State} (h : s.status ≠ .running) : step s = .refused .runEnded := by
  rcases step_cases s with ⟨hr, -⟩ | ⟨hr, -⟩ | ⟨-, hs⟩
  · exact absurd hr h
  · exact absurd hr h
  · exact hs

/-- Settles O15: a fault's final state has the status faulted. -/
theorem endedRunTakesNoStep : Obligations.EndedRunTakesNoStep := by
  refine ⟨fun s hs => step_of_not_running (by simp [hs]), fun s f h => ?_⟩
  obtain ⟨word, hf⟩ := step_fault_status h
  exact step_of_not_running (by simp [hf])

/-! ### PC, SP and skip after a fetching step -/

/-- The state resolution leaves in a fetching step: PC past the whole instruction, SP by PUSH and POP. -/
theorem resolved_state_of_decoded {s u : State} {ld : Loc} {ra : Ref}
    (h : resolveBoth s.decoded.dst s.decoded.src (s.setPc (s.pc + 1)) = some (ld, ra, u)) :
    u = (s.setPc (s.pc + BitVec.ofNat 16 s.decoded.length)).setSp
      (s.sp - s.decoded.dst.pushed + s.decoded.src.popped) := by
  rw [resolveBoth_state h, ← pc_after_operands]
  rfl

/-- Settles O17: with a skip pending, resolution is all that happens. -/
theorem skippedInstructionIsConsumedWithoutEffect :
    Obligations.SkippedInstructionIsConsumedWithoutEffect := by
  intro s hf hs hw
  obtain ⟨w, act, h⟩ := dispatcherStep_eq_withOperands s
  obtain ⟨ld, ra, u, hb⟩ := resolveBoth_isSome hw s.decoded.src (s.setPc (s.pc + 1))
  rw [step_of_fetches hf, h, withOperands_of_skip (s := s.setPc (s.pc + 1)) hs hb,
    resolved_state_of_decoded hb]

/-- Only the form PC resolves to PC's location. -/
theorem dst_eq_pc_of_resolved {b : Dst} {a : Src} {s t : State} {ra : Ref}
    (h : resolveBoth b a s = some (.pc, ra, t)) : b = .place .pc := by
  cases b with
  | place p => cases p <;> simp_all [resolveBoth, resolveDst, resolvePlace]
  | push | literal n => simp [resolveBoth, resolveDst] at h

/-- An instruction that writes no D writes no EX either: it can only request a skip. -/
theorem State.applyEffect_of_writesD_false {i : Instr} {D S : Word} {e : Effect} (s : State)
    (ld : Loc) (hi : i.writesD = false) (he : semanticsOf i D S = .ok e) :
    s.applyEffect ld e = if e.skip then s.setSkip true else s := by
  obtain ⟨hresult, hex, -⟩ := semanticsOf_ok he
  have hiEx : i.writesEx = false := by
    cases i with
    | ife | ifn | jsr => rfl
    | _ => cases hi
  have hr : e.result = none := by simpa [hi] using hresult
  have hx : e.exOut = none := by simpa [hiEx] using hex
  simp only [State.applyEffect, hr, hx]

/-- Settles O18: PC is where resolution left it, unless b is PC and D is written, or JSR jumps. -/
theorem pcMovesPastTheWholeInstruction : Obligations.PcMovesPastTheWholeInstruction := by
  intro s t hf h hkeep
  obtain ⟨ld, ra, u, hb, hcases⟩ := dispatcherStep_next ((step_of_fetches hf).symm.trans h)
  have hu : u.pc = s.pc + BitVec.ofNat 16 s.decoded.length := by
    rw [resolved_state_of_decoded hb]
    rfl
  rw [← hu]
  rcases hcases with ⟨-, rfl⟩ | ⟨hs, i, e, -, hd, he, rfl⟩ | ⟨hs, a, hd, rfl⟩
  · rfl
  · rcases hkeep with hk | ⟨hpc, -⟩ | ⟨b, a, hi⟩
    · simp [hs] at hk
    · exact State.applyEffect_pc u ld e fun hld => hpc (dst_eq_pc_of_resolved (hld ▸ hb))
    · have hi : i.writesD = false := by
        rcases hi with hi | hi <;> cases hd.symm.trans hi <;> rfl
      rw [State.applyEffect_of_writesD_false u ld hi he]
      split <;> rfl
  · rcases hkeep with hk | ⟨-, hj⟩ | ⟨b, a', hi | hi⟩
    · simp [hs] at hk
    · exact absurd hd (hj a)
    · cases hd.symm.trans hi
    · cases hd.symm.trans hi

/-- Settles O19: of the ways to go on, only an effect that requests a skip leaves the flag set, and
`semanticsOf_ok` says whose effects do. -/
theorem onlyAFailedConditionalSetsSkip : Obligations.OnlyAFailedConditionalSetsSkip := by
  intro s t hf h ht
  obtain ⟨ld, ra, u, hb, hcases⟩ := dispatcherStep_next ((step_of_fetches hf).symm.trans h)
  have hu : u.skip = s.skip := by rw [resolved_state_of_decoded hb]; rfl
  rcases hcases with ⟨-, rfl⟩ | ⟨hs, i, e, -, hd, he, rfl⟩ | ⟨hs, a, -, rfl⟩
  · cases ht
  · rw [State.applyEffect_skip, hu, hs, Bool.or_false] at ht
    obtain ⟨-, -, hskip⟩ := semanticsOf_ok he
    rw [hd] at hb
    rcases hskip ht with ⟨b, a, rfl, hne⟩ | ⟨b, a, rfl, heq⟩
    · exact ⟨hs, b, a, ld, ra, u, hb, .inl ⟨hd, hne⟩⟩
    · exact ⟨hs, b, a, ld, ra, u, hb, .inr ⟨hd, heq⟩⟩
  · cases (hu.trans hs).symm.trans ht

/-! ### The stored word and the placed word -/

/-- An unskipped basic instruction with resolved operands applies the effect its semantics ask for. -/
theorem exec_of_ok {i : Instr} {s t : State} {ld : Loc} {ra : Ref} {e : Effect}
    (hj : ∀ a, i ≠ .jsr a) (hs : s.skip = false)
    (h : resolveBoth i.dst i.src s = some (ld, ra, t))
    (he : semanticsOf i (t.readLoc ld) (t.val ra) = .ok e) :
    exec i s = .next (t.applyEffect ld e) := by
  rw [exec_eq_executeBasic hj]
  exact executeBasic_of_ok hs h he

/-- An instruction that writes D is no JSR. -/
theorem ne_jsr_of_writesD {i : Instr} (h : i.writesD = true) (a : Src) : i ≠ .jsr a := by
  rintro rfl
  cases h

/-- Memory after an instruction whose D is the memory word `n` reads there as the result. -/
theorem State.applyEffect_read_self {s : State} {n v : Word} {e : Effect} (hm : s.mem.wf)
    (he : e.result = some v) : (s.applyEffect (.mem n) e).mem.read n = v := by
  rw [State.applyEffect_mem, he]
  exact State.readLoc_writeLoc s (.mem n) v hm

/-- Settles O20: the result is written to `n`, and neither it nor EX moves PC. -/
theorem storedWordIsFetchedNext : Obligations.StoredWordIsFetchedNext := by
  intro s u i n ra hinv hf hs hd hD hb hS
  have hpc : i.dst ≠ .place .pc := by
    intro hi
    rw [hi] at hb
    simp [resolveBoth, resolveDst, resolvePlace] at hb
  obtain ⟨e, he, hresult⟩ :=
    semanticsOf_result (D := u.readLoc (.mem n)) (S := u.val ra) hD hpc hS
  have hu : u = (s.setPc (s.pc + BitVec.ofNat 16 s.decoded.length)).setSp
      (s.sp - s.decoded.dst.pushed + s.decoded.src.popped) :=
    resolved_state_of_decoded (by rwa [hd])
  have hm : u.mem.wf := by rw [hu]; exact hinv.mem_wf
  have hread := State.applyEffect_read_self (n := n) hm hresult
  refine ⟨u.applyEffect (.mem n) e, ?_, hread, ?_⟩
  · rw [step_of_decoded_instr hf hd]
    exact exec_of_ok (ne_jsr_of_writesD hD) hs hb he
  · intro hn
    have htpc : (u.applyEffect (.mem n) e).pc = n := by
      rw [State.applyEffect_pc u _ e (by simp), hu, hn]
      rfl
    refine ⟨htpc, ?_⟩
    rw [State.nextWord_fst, htpc, hread]

/-- Placing words at PC puts them there, and makes the next step fetch. -/
theorem State.placeAtPc_spec (s : State) (words : List Word) :
    (s.placeAtPc words).pc = s.pc ∧
      (s.placeAtPc words).mem = s.mem.writeWords s.pc words ∧ (s.placeAtPc words).fetches := by
  unfold State.placeAtPc
  dsimp only
  split
  · rename_i h
    exact ⟨rfl, rfl, rfl, of_decide_eq_true h⟩
  · exact ⟨rfl, rfl, rfl, Nat.lt_succ_self _⟩

/-- What the host places is what stands at PC. -/
theorem State.withFetchWord_decoded {s : State} (hm : s.mem.wf) (nbits w : Nat) :
    (s.withFetchWord nbits w).decoded
      = decode (tableWord nbits w 0) (tableWord nbits w 1) (tableWord nbits w 2) := by
  obtain ⟨hpc, hmem, -⟩ :=
    s.placeAtPc_spec [tableWord nbits w 0, tableWord nbits w 1, tableWord nbits w 2]
  have read (k : Nat) (hk : k < 3) := Memory.read_writeWords hm s.pc
    (ws := [tableWord nbits w 0, tableWord nbits w 1, tableWord nbits w 2]) (k := k) (by simp)
    (by omega)
  have h0 := read 0 (by decide)
  have h1 := read 1 (by decide)
  have h2 := read 2 (by decide)
  rw [BitVec.add_zero] at h0
  rw [State.decoded, State.withFetchWord, hpc, hmem, h0]
  exact congrArg₂ _ h1 h2

/-- What the host's question answers is what the words decode to. -/
theorem decode_of_decodeTableWord {nbits w : Nat} {i : Instr} (h : decodeTableWord nbits w = some i) :
    decode (tableWord nbits w 0) (tableWord nbits w 1) (tableWord nbits w 2) = .instr i := by
  unfold decodeTableWord at h
  split at h
  · rename_i j hj
    rw [hj, Option.some.inj h]
  · cases h

/-- Settles O21: the placed words are fetched, and PC is where it was. -/
theorem placedWordIsRunNext : Obligations.PlacedWordIsRunNext := by
  intro s nbits w i hm h
  obtain ⟨hpc, -, hf⟩ : (s.withFetchWord nbits w).pc = s.pc ∧ _ ∧
    (s.withFetchWord nbits w).fetches := s.placeAtPc_spec _
  have hd := (State.withFetchWord_decoded hm nbits w).trans (decode_of_decodeTableWord h)
  rw [step_of_decoded_instr hf hd, hpc]

end Sys2Proof.Machine
end

section
/-! PROOFS. Faults (spec/60_exceptions.md): every way a fetching step faults, which words raise which
fault, and what a fault leaves. -/

namespace Sys2Proof

/-- The literal is the one b operand that is not writable, and 0x1F its code alone (R104). -/
theorem dst_writable_eq_false_iff (b : Dst) : b.writable = false ↔ b.code = 0x1F#5 := by
  have register : ∀ r : Reg, registerCode 0x00#5 r ≠ 0x1F#5 ∧ registerCode 0x08#5 r ≠ 0x1F#5 ∧
      registerCode 0x10#5 r ≠ 0x1F#5 := by decide
  cases b with
  | place p => cases p <;> simp [Dst.writable, Dst.code, Place.code, register]
  | push | literal n => simp [Dst.writable, Dst.code]

namespace Machine

/-- The b operand at PC is a literal exactly when the word's b field is 0x1F. -/
theorem decoded_dst_writable_eq_false_iff (s : State) :
    s.decoded.dst.writable = false ↔ destinationField (s.mem.read s.pc) = 0x1F#5 := by
  obtain ⟨hb, -, -⟩ :=
    decode_operands (s.mem.read s.pc) (s.mem.read (s.pc + 1)) (s.mem.read (s.pc + 2))
  rw [dst_writable_eq_false_iff, ← hb]
  rfl

/-! ### How a step faults -/

/-- Raising a fault, read backwards. -/
theorem raise_eq_fault {reason : FaultReason} {address word : Word} {s : State} {f : Fault}
    (h : raise reason address word s = .fault f) :
    f.reason = reason ∧ f.final = s.setStatus (.faulted reason address word) := by
  obtain ⟨g, hg, hreason, hfinal⟩ := raise_cases reason address word s
  cases hg.symm.trans h
  exact ⟨hreason, hfinal⟩

/-- A literal b stops resolution, whatever the action would be. -/
theorem withOperands_of_literal {w : Word} {b : Dst} {a : Src} {act : Loc → Ref → State → Result}
    {s : State} (h : b.writable = false) : withOperands w b a act s
      = raise .literalDestination (s.pc - 1) w (literalDestinationState s) := by
  simp only [withOperands, resolveBoth_eq_none.2 h]

/-- The dispatcher's step resolves the operands of the word at PC, instruction or not, under that word. -/
theorem dispatcherStep_eq_withOperands_fetched (s : State) :
    ∃ act, dispatcherStep s
      = withOperands (s.mem.read s.pc) s.decoded.dst s.decoded.src act (s.setPc (s.pc + 1)) := by
  rw [dispatcherStep_eq]
  cases hd : s.decoded with
  | instr i =>
    obtain ⟨act, h⟩ := exec_eq_withOperands i (s.setPc (s.pc + 1))
    rw [word_of_decode hd] at h
    exact ⟨act, h⟩
  | invalid why b a => exact ⟨_, rfl⟩

/-- PC of the state an instruction runs in, less one, is the address of its word (log 25). -/
theorem State.fetched_address (s : State) : (s.setPc (s.pc + 1)).pc - 1 = s.pc := by simp

/-- A literal b at PC faults, in an instruction and in an invalid word, recording the word at PC. -/
theorem dispatcherStep_of_literal {s : State} (h : s.decoded.dst.writable = false) :
    dispatcherStep s = raise .literalDestination s.pc (s.mem.read s.pc)
      (literalDestinationState (s.setPc (s.pc + 1))) := by
  obtain ⟨act, hact⟩ := dispatcherStep_eq_withOperands_fetched s
  rw [hact, withOperands_of_literal h, State.fetched_address]

/-- An unskipped invalid word with a writable b faults with its reason, in the state resolution left. -/
theorem dispatcherStep_of_invalid {s : State} {why : Invalid} {b : Dst} {a : Src}
    (hs : s.skip = false) (hw : s.decoded.dst.writable = true) (hd : s.decoded = .invalid why b a) :
    ∃ ld ra u, resolveBoth s.decoded.dst s.decoded.src (s.setPc (s.pc + 1)) = some (ld, ra, u) ∧
      dispatcherStep s = raise (invalidReason why) s.pc (s.mem.read s.pc) u := by
  obtain ⟨ld, ra, u, hb⟩ := resolveBoth_isSome hw s.decoded.src (s.setPc (s.pc + 1))
  refine ⟨ld, ra, u, hb, ?_⟩
  rw [hd] at hb
  rw [dispatcherStep_eq, hd]
  refine (withOperands_of_resolved (s := s.setPc (s.pc + 1)) hs hb).trans ?_
  rw [State.fetched_address]

/-- Every way the dispatcher's step faults, with its final state: a literal b, skipped or not; or,
unskipped and in the state resolution left, an invalid word or a division by zero. -/
theorem dispatcherStep_fault_cases {s : State} {f : Fault} (h : dispatcherStep s = .fault f) :
    (s.decoded.dst.writable = false ∧ f.reason = .literalDestination ∧
      f.final = (literalDestinationState (s.setPc (s.pc + 1))).setStatus
        (.faulted f.reason s.pc (s.mem.read s.pc))) ∨
    (s.decoded.dst.writable = true ∧ s.skip = false ∧
      ((∃ why b a, s.decoded = .invalid why b a ∧ f.reason = invalidReason why) ∨
        ∃ op, f.reason = .divideByZero op) ∧
      f.final = ((s.setPc (s.pc + BitVec.ofNat 16 s.decoded.length)).setSp
        (s.sp - s.decoded.dst.pushed + s.decoded.src.popped)).setStatus
          (.faulted f.reason s.pc (s.mem.read s.pc))) := by
  cases hw : s.decoded.dst.writable with
  | false =>
    obtain ⟨hreason, hfinal⟩ := raise_eq_fault ((dispatcherStep_of_literal hw).symm.trans h)
    exact .inl ⟨rfl, hreason, hreason ▸ hfinal⟩
  | true =>
    cases hs : s.skip with
    | true =>
      obtain ⟨t, ht⟩ := dispatcherStep_next_of_skip hs hw
      cases ht.symm.trans h
    | false =>
      refine .inr ⟨rfl, rfl, ?_⟩
      cases hd : s.decoded with
      | invalid why b a =>
        obtain ⟨ld, ra, u, hb, hr⟩ := dispatcherStep_of_invalid hs hw hd
        obtain ⟨hreason, hfinal⟩ := raise_eq_fault (hr.symm.trans h)
        rw [hfinal, hreason, resolved_state_of_decoded hb, hd]
        exact ⟨.inl ⟨why, b, a, rfl, rfl⟩, rfl⟩
      | instr i =>
        obtain ⟨ld, ra, u, hb⟩ := resolveBoth_isSome hw s.decoded.src (s.setPc (s.pc + 1))
        have hu := resolved_state_of_decoded hb
        rw [dispatcherStep_eq, hd] at h
        rw [hd] at hb hu
        rcases exec_of_resolved (s := s.setPc (s.pc + 1)) hs hb with ⟨t, ht⟩ | ⟨-, op, -, hr⟩
        · cases ht.symm.trans h
        · obtain ⟨hreason, hfinal⟩ := raise_eq_fault (hr.symm.trans h)
          rw [hfinal, hreason, State.fetched_address, word_of_decode hd, hu]
          exact ⟨.inr ⟨op, rfl⟩, rfl⟩

/-! ### Which words fault -/

/-- Settles O22: neither an invalid word's reason nor a division by zero is LiteralDestination. -/
theorem literalDestinationFaultsExactlyAtCode1F :
    Obligations.LiteralDestinationFaultsExactlyAtCode1F := by
  intro s hf
  rw [step_of_fetches hf, ← decoded_dst_writable_eq_false_iff]
  constructor
  · rintro ⟨final, h⟩
    rcases dispatcherStep_fault_cases h with ⟨hw, -⟩ | ⟨-, -, ⟨why, b, a, -, hr⟩ | ⟨op, hr⟩, -⟩
    · exact hw
    · cases why <;> cases hr
    · cases hr
  · exact fun hw => ⟨_, dispatcherStep_of_literal hw⟩

/-- The fault an invalid word raises (R223, R224). -/
def invalidFault : Invalid → State → Fault
  | .unknownOpcode o, final => .unknownOpcode o final
  | .unknownSpecial c, final => .unknownSpecial c final

@[simp] theorem invalidFault_reason (why : Invalid) (final : State) :
    (invalidFault why final).reason = invalidReason why := by cases why <;> rfl

theorem raise_invalidReason (why : Invalid) (address word : Word) (s : State) :
    raise (invalidReason why) address word s
      = .fault (invalidFault why (s.setStatus (.faulted (invalidReason why) address word))) := by
  cases why <;> rfl

theorem invalidReason_injective : Function.Injective invalidReason := by
  rintro (o | c) (o' | c') h <;> cases h <;> rfl

/-- A fetching step raises an invalid word's fault exactly when it is unskipped, its b is no literal, and
what stands at PC is invalid for that reason. -/
theorem step_invalidFault_iff {s : State} (hf : s.fetches) (why : Invalid) :
    (∃ final, step s = .fault (invalidFault why final)) ↔
      s.skip = false ∧ destinationField (s.mem.read s.pc) ≠ 0x1F#5 ∧
        ∃ b a, s.decoded = .invalid why b a := by
  rw [step_of_fetches hf, Ne, ← decoded_dst_writable_eq_false_iff, Bool.not_eq_false]
  constructor
  · rintro ⟨final, h⟩
    rcases dispatcherStep_fault_cases h with
      ⟨-, hr, -⟩ | ⟨hw, hs, ⟨why', b, a, hd, hr⟩ | ⟨op, hr⟩, -⟩
    · cases why <;> cases hr
    · rw [invalidFault_reason] at hr
      obtain rfl := invalidReason_injective hr
      exact ⟨hs, hw, b, a, hd⟩
    · cases why <;> cases hr
  · rintro ⟨hs, hw, b, a, hd⟩
    obtain ⟨-, -, u, -, hr⟩ := dispatcherStep_of_invalid hs hw hd
    exact ⟨_, hr.trans (raise_invalidReason why s.pc (s.mem.read s.pc) u)⟩

/-- Settles O23: `step_invalidFault_iff` for a reserved opcode, by `decode_unknownOpcode_iff`. -/
theorem unknownOpcodeFaultsExactlyAtReservedOpcodes :
    Obligations.UnknownOpcodeFaultsExactlyAtReservedOpcodes := by
  intro s o hf
  refine (step_invalidFault_iff hf (.unknownOpcode o)).trans ?_
  exact and_congr_right fun _ => and_congr_right fun _ => decode_unknownOpcode_iff

/-- Settles O24: `step_invalidFault_iff` for a special code, which the b field is. -/
theorem unknownSpecialFaultsExactlyAtOtherSpecialCodes :
    Obligations.UnknownSpecialFaultsExactlyAtOtherSpecialCodes := by
  intro s c hf
  refine (step_invalidFault_iff hf (.unknownSpecial c)).trans ?_
  rw [State.decoded, decode_unknownSpecial_iff]
  constructor
  · rintro ⟨hs, hne, ho, rfl, h1⟩
    exact ⟨hs, ho, rfl, h1, hne⟩
  · rintro ⟨hs, ho, rfl, h1, hne⟩
    exact ⟨hs, hne, ho, rfl, h1⟩

/-- An unskipped basic instruction with resolved operands raises the fault of its semantics. -/
theorem exec_of_error {i : Instr} {s t : State} {ld : Loc} {ra : Ref} {r : FaultReason}
    (hj : ∀ a, i ≠ .jsr a) (hs : s.skip = false)
    (h : resolveBoth i.dst i.src s = some (ld, ra, t))
    (he : semanticsOf i (t.readLoc ld) (t.val ra) = .error r) :
    exec i s = raise r (s.pc - 1) i.word t := by
  rw [exec_eq_executeBasic hj]
  exact executeBasic_of_error hs h he

/-- Settles O25: the semantics ask for the fault when S is 0. -/
theorem remainderByZeroFaults : Obligations.RemainderByZeroFaults := by
  intro b a s ld ra t hs h h0
  exact ⟨exec_of_error (i := .mod b a) (r := .divideByZero .mod) (by simp) hs h (if_pos h0),
    exec_of_error (i := .mdi b a) (r := .divideByZero .mdi) (by simp) hs h (if_pos h0)⟩

/-- Settles O28: every instruction begins with the resolution of its operands. -/
theorem literalDestinationStopsEveryInstruction :
    Obligations.LiteralDestinationStopsEveryInstruction := by
  intro i n s hi
  obtain ⟨act, hact⟩ := exec_eq_withOperands i s
  exact ⟨_, hact.trans (withOperands_of_literal (hi ▸ rfl))⟩

/-! ### What a fault leaves -/

/-- A literal destination leaves everything but PC, which is before or past its extra word (D21). -/
theorem literalDestinationState_eq (s : State) :
    ∃ pc, (pc = s.pc ∨ pc = s.pc + 1) ∧ literalDestinationState s = s.setPc pc := by
  unfold literalDestinationState
  split
  · exact ⟨s.pc + 1, .inr rfl, rfl⟩
  · exact ⟨s.pc, .inl rfl, rfl⟩

/-- Only the dispatcher's step faults, not the run loop. -/
theorem dispatcherStep_of_step_fault {s : State} {f : Fault} (h : step s = .fault f) :
    dispatcherStep s = .fault f := by
  rcases step_cases s with ⟨-, -, hs⟩ | ⟨-, -, hs⟩ | ⟨-, hs⟩
  · exact hs.symm.trans h
  · cases hs.symm.trans h
  · cases hs.symm.trans h

/-- Settles O27: the final state is one of the two of `dispatcherStep_fault_cases`. -/
theorem faultAppliesNoSemantics : Obligations.FaultAppliesNoSemantics := by
  intro s f h
  rcases dispatcherStep_fault_cases (dispatcherStep_of_step_fault h) with
    ⟨-, hreason, hfinal⟩ | ⟨-, -, hreason, hfinal⟩
  · obtain ⟨pc, hpc, hl⟩ := literalDestinationState_eq (s.setPc (s.pc + 1))
    have htwo : s.pc + 1 + 1 = s.pc + 2 := by rw [BitVec.add_assoc]; rfl
    rw [hfinal, hl]
    exact ⟨rfl, rfl, rfl, rfl, rfl, rfl, fun _ => ⟨rfl, hpc.imp_right (·.trans htwo)⟩,
      fun hne => absurd hreason hne⟩
  · have hne : f.reason ≠ .literalDestination := by
      rcases hreason with ⟨why, -, -, -, hr⟩ | ⟨op, hr⟩
      · cases why <;> simp [hr, invalidReason]
      · simp [hr]
    rw [hfinal]
    exact ⟨rfl, rfl, rfl, rfl, rfl, rfl, fun hl => absurd hl hne, fun _ => ⟨rfl, rfl⟩⟩

end Machine
end Sys2Proof
end

section
/-! PROOFS. What each instruction computes (spec/42_arith.md to spec/45_special.md): the high words of the
exact results, and the state each instruction answers. -/

namespace Sys2Proof.Machine

/-! ### The high word of each exact result (R11, R160) -/

/-- A sum's high word is its carry. -/
theorem highWord_add (D S : Word) :
    highWord (zext16 D + zext16 S) = if 65536 ≤ D.toNat + S.toNat then 0x0001 else 0x0000 := by
  apply BitVec.eq_of_toNat_eq
  have := D.isLt
  have := S.isLt
  simp only [highWord_toNat, zext16]
  split <;> simp only [BitVec.reduceToNat] <;> omega

/-- A difference's high word is its borrow; `k` is the extra 1 of SUB PC, or 0. -/
theorem highWord_sub (D S : Word) {k : Nat} (hk : k ≤ 1) :
    highWord (zext16 D - zext16 S - k) = if D.toNat < S.toNat + k then 0xFFFF else 0x0000 := by
  apply BitVec.eq_of_toNat_eq
  have := D.isLt
  have := S.isLt
  simp only [highWord_toNat, zext16]
  split <;> simp only [BitVec.reduceToNat] <;> omega

/-- SUB PC's low word. -/
theorem w16_sub_one (D S : Word) : w16 (zext16 D - zext16 S - 1) = D - S - 1 := by
  apply BitVec.eq_of_toNat_eq
  have := D.isLt
  have := S.isLt
  simp only [w16_toNat, zext16, BitVec.toNat_sub, BitVec.reduceToNat]
  omega

/-- The high word of an exact result is bits 31 to 16 of its double word. -/
theorem extractLsb'_ofInt (t : Int) : (BitVec.ofInt 32 t).extractLsb' 16 16 = highWord t := by
  apply BitVec.eq_of_toNat_eq
  rw [highWord_toNat, BitVec.extractLsb'_toNat, BitVec.toNat_ofInt, Nat.shiftRight_eq_div_pow]
  omega

theorem highWord_mul (D S : Word) :
    highWord (zext16 D * zext16 S) = (D.setWidth 32 * S.setWidth 32).extractLsb' 16 16 := by
  have ext (w : Word) : w.setWidth 32 = BitVec.ofInt 32 (zext16 w) := by
    rw [zext16, BitVec.ofInt_natCast, BitVec.ofNat_toNat]
  rw [← extractLsb'_ofInt, BitVec.ofInt_mul, ext, ext]

theorem highWord_mul_signed (D S : Word) :
    highWord (sext16 D * sext16 S) = (D.signExtend 32 * S.signExtend 32).extractLsb' 16 16 := by
  rw [← extractLsb'_ofInt, BitVec.ofInt_mul]
  rfl

/-! ### The state each instruction answers -/

/-- An unskipped instruction whose semantics write `v` to D and no EX. -/
theorem exec_of_result {i : Instr} {s t : State} {ld : Loc} {ra : Ref} {v : Word}
    (hj : ∀ a, i ≠ .jsr a) (hs : s.skip = false)
    (h : resolveBoth i.dst i.src s = some (ld, ra, t))
    (he : semanticsOf i (t.readLoc ld) (t.val ra) = .ok { result := some v }) :
    exec i s = .next (t.writeLoc ld v) := exec_of_ok hj hs h he

/-- An unskipped instruction whose semantics write `v` to D and then `x` to EX (D9, log 9). -/
theorem exec_of_result_ex {i : Instr} {s t : State} {ld : Loc} {ra : Ref} {v x : Word}
    (hj : ∀ a, i ≠ .jsr a) (hs : s.skip = false)
    (h : resolveBoth i.dst i.src s = some (ld, ra, t))
    (he : semanticsOf i (t.readLoc ld) (t.val ra) = .ok { result := some v, exOut := some x }) :
    exec i s = .next ((t.writeLoc ld v).setEx x) := exec_of_ok hj hs h he

/-- Settles O31: SET's semantics write the source's word. -/
theorem setWritesTheSource : Obligations.SetWritesTheSource :=
  fun _ _ _ _ _ _ => exec_set_of_resolved

/-- Settles O32: the exact sum's low and high word, by `w16_add` and `highWord_add`. -/
theorem addGivesSumAndCarry : Obligations.AddGivesSumAndCarry := by
  intro b a s ld ra t hs h
  rw [← w16_add, ← highWord_add]
  exact exec_of_result_ex (i := .add b a) (by simp) hs h rfl

/-- Settles O33: with b other than PC nothing more is taken off. -/
theorem subGivesDifferenceAndBorrow : Obligations.SubGivesDifferenceAndBorrow := by
  intro b a s ld ra t hs hb h
  have h0 : subPcExtra b = (0 : Nat) := if_neg hb
  refine exec_of_result_ex (i := .sub b a) (by simp) hs h ?_
  simp only [semanticsOf, resultAndEx, h0]
  rw [highWord_sub _ _ (by decide), Nat.cast_zero, Int.sub_zero, w16_sub, Nat.add_zero]

/-- Settles O34: b is PC, so D is written to PC and 1 more is taken off. -/
theorem subFromPcTakesOneMore : Obligations.SubFromPcTakesOneMore := by
  intro a s ld ra t hs h
  obtain rfl : Loc.pc = ld := congrArg Prod.fst (Option.some.inj h)
  have h1 : subPcExtra (.place .pc) = (1 : Nat) := if_pos rfl
  refine exec_of_result_ex (i := .sub (.place .pc) a) (by simp) hs h ?_
  simp only [semanticsOf, resultAndEx, h1]
  rw [highWord_sub _ _ (by decide), Nat.cast_one, w16_sub_one]
  rfl

/-- Settles O35: the exact product's low and high word, by `w16_mul` and `highWord_mul`. -/
theorem mulGivesUnsignedProduct : Obligations.MulGivesUnsignedProduct := by
  intro b a s ld ra t hs h
  rw [← w16_mul, ← highWord_mul]
  exact exec_of_result_ex (i := .mul b a) (by simp) hs h rfl

/-- Settles O36: as O35, with both words read as signed. -/
theorem mliGivesSignedProduct : Obligations.MliGivesSignedProduct := by
  intro b a s ld ra t hs h
  rw [← w16_mul_signed, ← highWord_mul_signed]
  exact exec_of_result_ex (i := .mli b a) (by simp) hs h rfl

/-- Settles O37: the two branches of `divEffect`. -/
theorem divGivesUnsignedQuotient : Obligations.DivGivesUnsignedQuotient := by
  intro b a s ld ra t hs h
  refine exec_of_result_ex (i := .div b a) (by simp) hs h ?_
  by_cases h0 : t.val ra = 0
  · simp only [semanticsOf, divEffect, if_pos h0]
  · simp only [semanticsOf, divEffect, if_neg h0, w16_div]

/-- Settles O38: the two branches of `dviEffect`. -/
theorem dviGivesSignedQuotient : Obligations.DviGivesSignedQuotient := by
  intro b a s ld ra t hs h
  refine exec_of_result_ex (i := .dvi b a) (by simp) hs h ?_
  by_cases h0 : t.val ra = 0
  · simp only [semanticsOf, dviEffect, if_pos h0]
  · simp only [semanticsOf, dviEffect, if_neg h0, w16_div_signed]

/-- Settles O39: the branch of `modEffect` for S other than 0. -/
theorem modGivesUnsignedRemainder : Obligations.ModGivesUnsignedRemainder := by
  intro b a s ld ra t hs h h0
  rw [← w16_mod]
  exact exec_of_result (i := .mod b a) (by simp) hs h (if_neg h0)

/-- Settles O40: the branch of `mdiEffect` for S other than 0. -/
theorem mdiGivesSignedRemainder : Obligations.MdiGivesSignedRemainder := by
  intro b a s ld ra t hs h h0
  rw [← w16_mod_signed]
  exact exec_of_result (i := .mdi b a) (by simp) hs h (if_neg h0)

/-- Settles O41: each semantics writes the result as it stands. -/
theorem bitwiseInstructionsGiveTheirResult : Obligations.BitwiseInstructionsGiveTheirResult :=
  fun b a _ _ _ _ hs h => ⟨exec_of_result (i := .and b a) (by simp) hs h rfl,
    exec_of_result (i := .bor b a) (by simp) hs h rfl,
    exec_of_result (i := .xor b a) (by simp) hs h rfl⟩

/-- With skip clear, the effect of a condition is to set skip to its negation. -/
theorem State.applyEffect_skipUnless {t : State} (ht : t.skip = false) (ld : Loc) (c : Bool) :
    t.applyEffect ld (skipUnless c) = t.setSkip !c := by
  cases c with
  | true =>
    calc
      t.applyEffect ld (skipUnless true) = t.setSkip t.skip := rfl
      _ = t.setSkip false := by rw [ht]
  | false => rfl

/-- Settles O42: IFE and IFN are `skipUnless` of opposite conditions. -/
theorem conditionalsRequestASkip : Obligations.ConditionalsRequestASkip := by
  intro b a s ld ra t hs h
  have ht : t.skip = false := by rw [resolveBoth_state h]; exact hs
  constructor
  · rw [exec_of_ok (i := .ife b a) (by simp) hs h rfl, State.applyEffect_skipUnless ht, decide_not]
  · rw [exec_of_ok (i := .ifn b a) (by simp) hs h rfl, State.applyEffect_skipUnless ht, decide_not,
      Bool.not_not]

/-- Settles O43: the special code's operand, register 1, resolves with no effect (D7, log 17). -/
theorem jsrJumpsWithoutPushing : Obligations.JsrJumpsWithoutPushing := by
  intro a s hs
  refine ⟨exec_jsr_of_resolved (ld := .reg 1) hs rfl, ?_⟩
  rw [resolveSrc_state]
  exact ⟨rfl, rfl, rfl, rfl⟩

/-! ### PUSH and POP -/

/-- Settles O44: the word the call stored is read back at SP, and POP undoes PUSH. -/
theorem returnUndoesTheCallPush : Obligations.ReturnUndoesTheCallPush := by
  intro s t u v hm hs ht hmem hsp hu
  have hcall := exec_set_of_resolved (b := .push) (a := .literal v) (ld := .mem (s.sp - 1))
    (ra := .value v) hs rfl
  obtain rfl := Host.Outcome.next.inj (hcall.symm.trans ht)
  have husp : u.sp = s.sp - 1 := hsp
  have hread : u.mem.read u.sp = v := by
    rw [husp, hmem]
    exact State.readLoc_writeLoc _ (.mem (s.sp - 1)) v hm
  rw [exec_set_of_resolved (b := .place .pc) (a := .pop) (ld := .pc) (ra := .loc (.mem u.sp))
    (t := u.setSp (u.sp + 1)) hu rfl]
  change Host.Outcome.next ((u.setSp (u.sp + 1)).setPc (u.mem.read u.sp)) = _
  rw [hread, husp, BitVec.sub_add_cancel]

/-- Writing back the word a location holds changes nothing. -/
theorem State.writeLoc_readLoc_self {s : State} (hm : s.mem.wf) (l : Loc) :
    s.writeLoc l (s.readLoc l) = s := by
  cases l with
  | reg i =>
    have hx : s.x.set i (s.reg i) = s.x := Vector.set_getElem_self i.isLt
    rw [State.writeLoc, State.readLoc, State.setReg, hx]
    rfl
  | mem a =>
    have hmem : s.mem.write a (s.mem.read a) = s.mem := by
      refine Memory.eq_of_read (Memory.write_wf hm a _) hm fun b => ?_
      rw [Memory.read_write hm]
      split
      · rename_i h
        rw [h]
      · rfl
    rw [State.writeLoc, State.readLoc, hmem]
    rfl
  | sp | pc | ex => rfl

/-- Settles O30: PUSH moves SP before a is resolved, so PEEK and POP name the word it writes, and the
word is written back. -/
theorem pushIsSeenByTheSourceOperand : Obligations.PushIsSeenByTheSourceOperand := by
  intro s n hs
  have push (a : Src) := exec_set_of_resolved (b := .push) (a := a) (ld := .mem (s.sp - 1)) hs rfl
  refine ⟨push _, push _, fun hm => ?_, fun hm => ?_⟩
  · exact (push (.place .peek)).trans
      (congrArg Host.Outcome.next (State.writeLoc_readLoc_self (s := s.setSp (s.sp - 1)) hm _))
  · have hsp : (s.setSp (s.sp - 1)).setSp (s.sp - 1 + 1) = s.setSp s.sp := by
      rw [BitVec.sub_add_cancel]
      rfl
    refine (push .pop).trans (congrArg Host.Outcome.next ?_)
    exact (State.writeLoc_readLoc_self (s := (s.setSp (s.sp - 1)).setSp (s.sp - 1 + 1)) hm
      (.mem (s.sp - 1))).trans hsp

end Sys2Proof.Machine
end

section
/-! PROOFS. Frames (spec/10_state.md): what each family of instructions leaves unchanged. -/

namespace Sys2Proof.Machine

/-- Every way an instruction goes on: its operands are consumed under a skip, or its effect is applied, or
JSR jumps. -/
theorem exec_next_cases {i : Instr} {s t : State} (h : exec i s = .next t) :
    ∃ ld ra u, resolveBoth i.dst i.src s = some (ld, ra, u) ∧
      ((s.skip = true ∧ t = u.setSkip false) ∨
        (s.skip = false ∧ ∃ e, semanticsOf i (u.readLoc ld) (u.val ra) = .ok e ∧
          t = u.applyEffect ld e) ∨
        (s.skip = false ∧ ∃ a, i = .jsr a ∧ t = u.setPc (u.val ra))) := by
  obtain ⟨act, hact⟩ := exec_eq_withOperands i s
  cases hw : i.dst.writable with
  | false => exact absurd ((hact.trans (withOperands_of_literal hw)).symm.trans h) raise_ne_next
  | true =>
    obtain ⟨ld, ra, u, hb⟩ := resolveBoth_isSome hw i.src s
    refine ⟨ld, ra, u, hb, ?_⟩
    cases hs : s.skip with
    | true =>
      cases (hact.trans (withOperands_of_skip hs hb)).symm.trans h
      exact .inl ⟨rfl, rfl⟩
    | false =>
      refine .inr ?_
      by_cases hj : ∃ a, i = .jsr a
      · obtain ⟨a, rfl⟩ := hj
        cases (exec_jsr_of_resolved hs hb).symm.trans h
        exact .inr ⟨rfl, a, rfl, rfl⟩
      · have hj : ∀ a, i ≠ .jsr a := fun a e => hj ⟨a, e⟩
        cases he : semanticsOf i (u.readLoc ld) (u.val ra) with
        | error r => exact absurd ((exec_of_error hj hs hb he).symm.trans h) raise_ne_next
        | ok e =>
          cases (exec_of_ok hj hs hb he).symm.trans h
          exact .inl ⟨rfl, e, rfl, rfl⟩

section writers
variable {i : Instr} {s t u : State} {ld : Loc} {ra : Ref} (hD : i.writesD = true)
  (hb : resolveBoth i.dst i.src s = some (ld, ra, u)) (h : exec i s = .next t)
include hD hb h

/-- The ways an instruction that writes D goes on, in the state resolution left. -/
theorem exec_writer_next :
    (s.skip = true ∧ t = u.setSkip false) ∨
      (s.skip = false ∧ ∃ e, semanticsOf i (u.readLoc ld) (u.val ra) = .ok e ∧ e.skip = false ∧
        t = u.applyEffect ld e) := by
  obtain ⟨ld', ra', u', hb', hcases⟩ := exec_next_cases h
  cases hb.symm.trans hb'
  rcases hcases with hskip | ⟨hs, e, he, ht⟩ | ⟨-, a, hj, -⟩
  · exact .inl hskip
  · obtain ⟨-, -, hcond⟩ := semanticsOf_ok he
    have hk : e.skip = false := by
      rw [← Bool.not_eq_true]
      intro hk
      rcases hcond hk with ⟨b, a, rfl, -⟩ | ⟨b, a, rfl, -⟩ <;> cases hD
    exact .inr ⟨hs, e, he, hk, ht⟩
  · exact absurd hj (ne_jsr_of_writesD hD a)

/-- What every instruction that writes D leaves unchanged besides EX. -/
theorem exec_writer_frame (hm : s.mem.wf) :
    (∀ r, ld ≠ .reg r → t.reg r = s.reg r) ∧
    (ld ≠ .sp → t.sp = s.sp - i.dst.pushed + i.src.popped) ∧
    (∀ c, ld ≠ .mem c → t.mem.read c = s.mem.read c) ∧
    t.skip = false ∧ t.status = s.status ∧ t.programLength = s.programLength := by
  have hu := resolveBoth_state hb
  rcases exec_writer_next hD hb h with ⟨-, rfl⟩ | ⟨hs, e, -, hk, rfl⟩
  · rw [hu]
    exact ⟨fun _ _ => rfl, fun _ => rfl, fun _ _ => rfl, rfl, rfl, rfl⟩
  · have hmem : u.mem = s.mem := by rw [hu]; rfl
    refine ⟨fun r hr => ?_, fun hsp => ?_, fun c hc => ?_, ?_, ?_, ?_⟩
    · rw [State.applyEffect_reg u ld e hr, hu]
      rfl
    · rw [State.applyEffect_sp u ld e hsp, hu]
      rfl
    · rw [State.applyEffect_read u ld e (hmem ▸ hm) hc, hmem]
    · rw [State.applyEffect_skip, hk, hu]
      exact hs
    · rw [State.applyEffect_status, hu]
      rfl
    · rw [State.applyEffect_programLength, hu]
      rfl

/-- An instruction that writes D leaves EX unchanged if it was skipped, or if neither its D is EX nor it
writes EX beside D. -/
theorem exec_writer_ex (hex : s.skip = true ∨ (ld ≠ .ex ∧ i.writesEx = false)) : t.ex = s.ex := by
  have hu : u.ex = s.ex := by rw [resolveBoth_state hb]; rfl
  rcases exec_writer_next hD hb h with ⟨-, rfl⟩ | ⟨hs, e, he, -, rfl⟩
  · exact hu
  · obtain ⟨hld, hi⟩ := hex.resolve_left (by simp [hs])
    obtain ⟨-, hout, -⟩ := semanticsOf_ok he
    rw [State.applyEffect_ex u ld e hld (by simpa [hi] using hout), hu]

end writers

/-- Settles O45: the frame of every writer of D, and EX because these do not write it. -/
theorem frameOfTheWritersThatKeepEx : Obligations.FrameOfTheWritersThatKeepEx := by
  intro i s t u ld ra hD hEx hm hb h
  obtain ⟨hreg, hsp, hread, hrest⟩ := exec_writer_frame hD hb h hm
  exact ⟨hreg, hsp, fun hld => exec_writer_ex hD hb h (.inr ⟨hld, hEx⟩), hread, hrest⟩

/-- Settles O46: the frame of every writer of D; EX is kept only under a skip. -/
theorem frameOfTheWritersOfEx : Obligations.FrameOfTheWritersOfEx := by
  intro i s t u ld ra hD _ hm hb h
  obtain ⟨hreg, hsp, hread, hrest⟩ := exec_writer_frame hD hb h hm
  exact ⟨hreg, hsp, fun hs => exec_writer_ex hD hb h (.inl hs), hread, hrest⟩

/-- An instruction that writes no D changes only PC and skip of the state resolution left, and only IFE
and IFN can set skip. -/
theorem exec_next_of_writesD_false {i : Instr} {s t : State} (hi : i.writesD = false)
    (h : exec i s = .next t) :
    ∃ ld ra u pc skip, resolveBoth i.dst i.src s = some (ld, ra, u) ∧
      t = (u.setPc pc).setSkip skip ∧ ((∃ a, i = .jsr a) → skip = false) := by
  obtain ⟨ld, ra, u, hb, hcases⟩ := exec_next_cases h
  have hu : u.skip = s.skip := by rw [resolveBoth_state hb]; rfl
  refine ⟨ld, ra, u, t.pc, t.skip, hb, ?_⟩
  rcases hcases with ⟨-, rfl⟩ | ⟨hs, e, he, rfl⟩ | ⟨hs, a, rfl, rfl⟩
  · exact ⟨rfl, fun _ => rfl⟩
  · refine ⟨?_, fun ⟨a, hj⟩ => ?_⟩
    · rw [State.applyEffect_of_writesD_false u ld hi he]
      split <;> rfl
    · subst hj
      obtain rfl := Except.ok.inj he
      rw [State.applyEffect_skip, hu, hs]
      rfl
  · exact ⟨rfl, fun _ => hu.trans hs⟩

/-- Settles O47: PC and skip are not in the frame. -/
theorem frameOfTheInstructionsWithoutDestination :
    Obligations.FrameOfTheInstructionsWithoutDestination := by
  intro i s t hi h
  obtain ⟨ld, ra, u, pc, skip, hb, rfl, hskip⟩ := exec_next_of_writesD_false hi h
  rw [resolveBoth_state hb]
  exact ⟨rfl, rfl, rfl, rfl, rfl, rfl, fun a ha => hskip ⟨a, ha⟩⟩

end Sys2Proof.Machine
end
